-- ==== Sys2Proof/Word.lean ====
section
/-! DEFINITION. The word types of the DBPE (spec/00_scope.md R2, R4, R5; spec/30_encoding.md R50). -/

namespace Sys2Proof

/-- One byte, the unit of both memory images (R30). -/
abbrev Byte := BitVec 8

/-- An address of the consumer's address space, `ADDR_W = 32` bits (R5). -/
abbrev Addr := BitVec 32

/-- A segment descriptor seen as one 64-bit value `d` (R2, R11). -/
abbrev Descriptor := BitVec 64

/-- A 96-bit command word `cw` of format CMD96 (R50). -/
abbrev CommandWord := BitVec 96

end Sys2Proof
end

