-- ==== Sys2Proof/Syntax.lean ====
section
/-! DEFINITION. The five commands of the block (spec/30_encoding.md R52, R58), one constructor per row of
spec/opcode_table.json. -/

namespace Sys2Proof

/-- A decoded command with its operands as the command word carries them (R54): unsigned, unshifted, not narrowed. -/
inductive Instr where
  /-- ENCODE, opcode 0x01: pack the operands into entry `index` (R80). -/
  | encode (index : BitVec 8) (base limit : BitVec 32) (access flags : BitVec 8)
  /-- BUILD, opcode 0x02: the Table Builder (R91). -/
  | build
  /-- MKPTR, opcode 0x03: the Table Pointer Assembler (R100). -/
  | mkptr
  /-- LOAD, opcode 0x04: the hand-off to the external loader (R102). -/
  | load
  /-- INIT, opcode 0x05: BUILD, MKPTR and LOAD in one step (R106). -/
  | init
  deriving DecidableEq, Repr

end Sys2Proof
end

