-- ==== Sys2Proof/WellFormed.lean ====
section
/-! DEFINITION. Well-formedness. A decoded command is well-formed by its types: every value of every operand field is
legal (R51, R54, R56). What can be ill-formed is a source line, whose operands are plain numbers: an assembler refuses
an operand that does not fit its field (R59). -/

namespace Sys2Proof

/-- Every command with operands of the field widths is well-formed: `index >= N_ENTRIES` is a legal encoding (R51),
`limit[31:20]` and `flags[3:0]` are don't-care, not reserved (R54, R56). -/
abbrev Instr.WellFormed : Instr → Prop
  | .encode _ _ _ _ _ => True
  | .build => True
  | .mkptr => True
  | .load => True
  | .init => True

/-- One line of assembler source (R59), the pseudo-commands of R61 included; operands are the numbers as written. -/
inductive AsmLine where
  | encode (index base limit access flags : Nat)
  | build
  | mkptr
  | load
  | init
  /-- `NULLD index` (R61) -/
  | nulld (index : Nat)
  /-- `FLAT index, access` (R61) -/
  | flat (index access : Nat)
  deriving DecidableEq, Repr

/-- The operands fit their fields (R59): `index <= 255`, `base, limit <= 0xFFFFFFFF`, `access, flags <= 0xFF`. A `limit`
above `0xFFFFF` and low-nibble bits of `flags` are NOT refused (R59). -/
abbrev AsmLine.WellFormed : AsmLine → Prop
  | .encode index base limit access flags =>
      index ≤ 255 ∧ base ≤ 0xFFFFFFFF ∧ limit ≤ 0xFFFFFFFF ∧ access ≤ 0xFF ∧ flags ≤ 0xFF
  | .build => True
  | .mkptr => True
  | .load => True
  | .init => True
  | .nulld index => index ≤ 255
  | .flat index access => index ≤ 255 ∧ access ≤ 0xFF

/-- The check an assembler makes (R59), as a Boolean. -/
def AsmLine.wellFormed (l : AsmLine) : Bool :=
  match l with
  | .encode index base limit access flags =>
      decide (AsmLine.WellFormed (.encode index base limit access flags))
  | .build => true
  | .mkptr => true
  | .load => true
  | .init => true
  | .nulld index => decide (AsmLine.WellFormed (.nulld index))
  | .flat index access => decide (AsmLine.WellFormed (.flat index access))

end Sys2Proof
end

