-- ==== Sys2Proof/Decode.lean ====
section
/-! DEFINITION. The decoder, total on all command words and on all byte strings (spec/30_encoding.md R50 to R58), then
the canonical encoder `encode_cmd` of R58 and the byte and text forms of a command word (R50). -/

namespace Sys2Proof

/-- Why no command was decoded. -/
inductive Reject where
  /-- `op` is none of `0x01 .. 0x05` (R55). -/
  | illegalOp (op : BitVec 8)
  /-- A byte string that is not the 12 bytes of one command word (R50, R57). -/
  | badLength (bytes : Nat)
  deriving DecidableEq, Repr

/-! Fields of the command word (R50, R54). -/

/-- `op = cw[95:88]` -/
def fieldOp (cw : CommandWord) : BitVec 8 := cw.extractLsb' 88 8
/-- `index = cw[87:80]` -/
def fieldIndex (cw : CommandWord) : BitVec 8 := cw.extractLsb' 80 8
/-- `base = cw[79:48]` -/
def fieldBase (cw : CommandWord) : BitVec 32 := cw.extractLsb' 48 32
/-- `limit = cw[47:16]` -/
def fieldLimit (cw : CommandWord) : BitVec 32 := cw.extractLsb' 16 32
/-- `access = cw[15:8]` -/
def fieldAccess (cw : CommandWord) : BitVec 8 := cw.extractLsb' 8 8
/-- `flags = cw[7:0]` -/
def fieldFlags (cw : CommandWord) : BitVec 8 := cw.extractLsb' 0 8

/-- R58 `decode`: the opcode alone selects the command (R52); the operand fields of the operand-less commands are
ignored (R53); every other opcode is illegal (R55). -/
def decode (cw : CommandWord) : Except Reject Instr :=
  if fieldOp cw = 0x01 then
    .ok (.encode (fieldIndex cw) (fieldBase cw) (fieldLimit cw) (fieldAccess cw) (fieldFlags cw))
  else if fieldOp cw = 0x02 then .ok .build
  else if fieldOp cw = 0x03 then .ok .mkptr
  else if fieldOp cw = 0x04 then .ok .load
  else if fieldOp cw = 0x05 then .ok .init
  else .error (.illegalOp (fieldOp cw))

/-- The command word of a byte string, the first byte the most significant (R50). -/
def wordOfBytes (bs : List Byte) : CommandWord :=
  bs.foldl (fun w b => (w <<< 8) ||| b.setWidth 96) 0

/-- Decoding a byte string: one command word is exactly 12 bytes (R50, R57). -/
def decodeBytes (bs : List Byte) : Except Reject Instr :=
  if bs.length = 12 then decode (wordOfBytes bs) else .error (.badLength bs.length)

/-- The instruction the decoder reads from a row of spec/opcode_table.json's numbering: one 96-bit word, bit 0 the least
significant; bits the table does not give are 0. -/
def decodeTableWord (nbits w : Nat) : Option Instr :=
  match decode (BitVec.ofNat 96 (w % 2 ^ nbits)) with
  | .ok i => some i
  | .error _ => none

/-! The encoder, written from the same table (R52, R58). -/

/-- The opcode of each command (R52). -/
def Instr.opcode : Instr → BitVec 8
  | .encode _ _ _ _ _ => 0x01
  | .build => 0x02
  | .mkptr => 0x03
  | .load => 0x04
  | .init => 0x05

/-- R58 `encode_cmd`: `{op, index, base, limit, access, flags}`, and 88 zero bits below the opcode of an operand-less
command (R53). -/
def encode (i : Instr) : CommandWord :=
  match i with
  | .encode index base limit access flags =>
      (Instr.encode index base limit access flags).opcode ++ index ++ base ++ limit ++ access ++ flags
  | .build => Instr.build.opcode ++ (0 : BitVec 88)
  | .mkptr => Instr.mkptr.opcode ++ (0 : BitVec 88)
  | .load => Instr.load.opcode ++ (0 : BitVec 88)
  | .init => Instr.init.opcode ++ (0 : BitVec 88)

/-- The 12 bytes of a command word, most significant first (R50). -/
def bytesOfWord (cw : CommandWord) : List Byte :=
  (List.range 12).map fun k => cw.extractLsb' (8 * (11 - k)) 8

/-- A command word as 24 hexadecimal digit values, most significant first (R50). -/
def hexDigitsOfWord (cw : CommandWord) : List Nat :=
  (List.range 24).map fun k => (cw.extractLsb' (4 * (23 - k)) 4).toNat

/-- One row of the match and mask form of the opcode map (R52, spec/opcode_table.json). -/
structure OpcodeRow where
  mnemonic : String
  pattern : CommandWord
  mask : CommandWord
  deriving DecidableEq, Repr

/-- The opcode map as match and mask over the 96-bit word (R52). -/
def opcodeRows : List OpcodeRow :=
  [ ⟨"ENCODE", 0x010000000000000000000000, 0xFF0000000000000000000000⟩,
    ⟨"BUILD", 0x020000000000000000000000, 0xFF0000000000000000000000⟩,
    ⟨"MKPTR", 0x030000000000000000000000, 0xFF0000000000000000000000⟩,
    ⟨"LOAD", 0x040000000000000000000000, 0xFF0000000000000000000000⟩,
    ⟨"INIT", 0x050000000000000000000000, 0xFF0000000000000000000000⟩ ]

/-- A word matches a row: `cw & mask == match` (R52). -/
def OpcodeRow.hits (r : OpcodeRow) (cw : CommandWord) : Bool := cw &&& r.mask == r.pattern

/-- The mnemonic of each command (R52). -/
def Instr.mnemonic : Instr → String
  | .encode _ _ _ _ _ => "ENCODE"
  | .build => "BUILD"
  | .mkptr => "MKPTR"
  | .load => "LOAD"
  | .init => "INIT"

end Sys2Proof
end

