-- ==== Sys2Proof/Config.lean ====
section
/-! DEFINITION. What is fixed when the block is instantiated (R3, R5, R24, R90), and the values the spec leaves open. -/

namespace Sys2Proof

/-- The three access bytes the source gives no literal for (R90 `CanonAccess`). -/
structure CanonAccess where
  kdata : BitVec 8
  ucode : BitVec 8
  udata : BitVec 8
  deriving DecidableEq, Repr

/-- The parameters of the step function (R24): every operation of the machine takes them as an argument. -/
structure Params where
  /-- `N_ENTRIES` (R3) -/
  nEntries : Nat
  /-- `TABLE_BASE`, the address of byte 0 of entry 0 (R5) -/
  tableBase : Addr
  /-- `PTR_ADDR`, the address of byte 0 of the pointer record (R5) -/
  ptrAddr : Addr
  /-- `CanonAccess` (R90) -/
  canon : CanonAccess
  deriving DecidableEq, Repr

/-- The constraint R5 puts on the two addresses for a table of `n` entries: neither range wraps past `2^32 - 1`, and
they do not overlap. -/
abbrev PlacementLegal (n : Nat) (tableBase ptrAddr : Addr) : Prop :=
  tableBase.toNat + 8 * n ≤ 2 ^ 32 ∧ ptrAddr.toNat + 6 ≤ 2 ^ 32 ∧
    (tableBase.toNat + 8 * n ≤ ptrAddr.toNat ∨ ptrAddr.toNat + 6 ≤ tableBase.toNat)

/-- A legal instantiation (R3: `5 <= N_ENTRIES <= 256`; R5). -/
abbrev Params.Legal (p : Params) : Prop :=
  5 ≤ p.nEntries ∧ p.nEntries ≤ 256 ∧ PlacementLegal p.nEntries p.tableBase p.ptrAddr

/-- FREE VALUE. `TABLE_BASE` is OPEN (R5, D7): nothing is known of it. Log 6. -/
opaque Config.freeTableBase : Addr

/-- FREE VALUE. `PTR_ADDR` is OPEN (R5, D8): nothing is known of it. Log 6. -/
opaque Config.freePtrAddr : Addr

/-- FREE VALUE. Which of a byte's possible values the consumer sees when the byte was written over after the last load
event (R44, U10), drawn from how many commands have been presented and the byte's address. Log 12. -/
opaque Config.consumerPick : Nat → Nat → Nat

end Sys2Proof
end

