-- ==== Sys2Proof/Machine/State.lean ====
section
/-! DEFINITION. The state of the machine as plain data (spec/10_state.md R11 to R20), the reasons the MODEL stops, and
the state after reset. -/

namespace Sys2Proof.Machine

/-- The Table Pointer (R15), with the widths of R6. -/
structure TablePointer where
  limit : BitVec 16
  base : Addr
  deriving DecidableEq, Repr

/-- A load event `Load(a, l, b)` (R104). -/
structure LoadEvent where
  ptrAddr : Addr
  limit : BitVec 16
  base : Addr
  deriving DecidableEq, Repr

/-- The lifecycle state (R14): a three-constructor type is exact, `0b11` is never produced (U20). -/
inductive Phase where
  | uninit
  | populated
  | installed
  deriving DecidableEq, Repr

/-- The three causes of a fault of the BLOCK (R120). They are entered as next states (log 1), not as model stops. -/
inductive FaultCause where
  /-- `F_INDEX`: ENCODE with `index >= N_ENTRIES` (R81). -/
  | index
  /-- `F_ORDER`: MKPTR or LOAD out of order (R101, R102). -/
  | order
  /-- `F_ILLEGAL`: an unknown opcode (R55). -/
  | illegal
  deriving DecidableEq, Repr

/-- The outcome the block answers a command with (R8, R23). -/
inductive Answer where
  | ok
  | okWithLoad (e : LoadEvent)
  | fault (c : FaultCause)
  | refused
  deriving DecidableEq, Repr

/-- The environment data the spec describes beside the block (R105, R44). Log 12, log 15. -/
structure Consumer where
  /-- The consumer's descriptor-table register `dtr` (R105): what the last load event installed. -/
  dtr : Option TablePointer
  /-- For each entry written since the last load event, the values it had before (`none`: unwritten), without repeats:
  the consumer may still see them (R44, U10). Keys strictly rising. -/
  oldEntries : List (Nat × List (Option Descriptor))
  /-- The same for the pointer. -/
  oldPtrs : List (Option TablePointer)
  deriving DecidableEq, Repr

/-- The state of the block (R20), the transaction it is in, and the environment data.
Reset values: R20; the model's own fields: logs 1, 2, 3, 12. -/
structure State where
  /-- The descriptor table `T` (R12): the written entries by index, strictly rising; an index not listed is *unwritten*
  (R19). Log 4, log 5. -/
  table : List (Nat × Descriptor)
  /-- `ptr_limit` and `ptr_base` (R15): `none` when unwritten (R19). -/
  ptr : Option TablePointer
  /-- `ptr_valid` (R16) -/
  ptrValid : Bool
  /-- `phase` (R14) -/
  phase : Phase
  /-- `fault`, sticky (R17) -/
  fault : Bool
  /-- `fault_code` (R17) -/
  faultCode : BitVec 2
  /-- `loads`, the event history, oldest first (R18) -/
  loads : List LoadEvent
  /-- MODEL: the outcome of the last command presented (R8, R23). Log 1. -/
  answer : Option Answer
  /-- MODEL: the command words the host has yet to present on the command port (R23, R57). Log 2. -/
  pending : List CommandWord
  /-- MODEL: how many commands have been presented; read only by the free choice of R44. Log 3. -/
  presented : Nat
  /-- Environment: the consumer's side of the hand-off (R105, R44). -/
  consumer : Consumer
  deriving DecidableEq, Repr

/-- Why the model stops. None of these is a fault of the block: those are next states (R124, log 1). -/
inductive Fault where
  /-- A consumer read covers a byte that has no value (R35). Raised by the consumer reads of Image.lean, never by a
  step. Safe: the spec gives such a read no result. -/
  | unwrittenByte (addr : Nat)
  /-- A consumer read covers an address outside both images, which the block does not drive (R30). Raised by the
  consumer reads of Image.lean, never by a step. Safe. Log 9. -/
  | outsideImages (addr : Nat)
  /-- A consumer read of a width outside 1 to 8 bytes (R34). Raised by the consumer reads of Image.lean, never by a
  step. Safe. Log 9. -/
  | badWidth (bytes : Nat)
  /-- A consumer read before any load event (R34, R151: assumed never to happen). Raised by `consumerRead`, never by a
  step. Safe. Log 10. -/
  | notLoaded
  /-- LOAD would read the pointer, `ptr_valid` is 1, and the pointer is unwritten: R22 item 2 rules such a state out, and
  an unwritten location holds no value (R19). Raised by LOAD. Safe. Log 13. -/
  | unwrittenPointer
  deriving DecidableEq, Repr

/-- Why the model has no meaning for an instruction. -/
inductive Refusal where
  /-- The arm of exec has no meaning yet. No arm of this model answers it. Safe. -/
  | notModelled (mnemonic : String)
  deriving DecidableEq, Repr

/-- What a command ends in. -/
abbrev Result := Host.Outcome State Fault Refusal

/-- The consumer at power-on: nothing installed (R105), nothing seen. -/
def Consumer.powerOn : Consumer := { dtr := none, oldEntries := [], oldPtrs := [] }

/-- The state right after reset (R20, R140), at power-on of the consumer. -/
def State.reset : State :=
  { table := []
    ptr := none
    ptrValid := false
    phase := .uninit
    fault := false
    faultCode := 0b00
    loads := []
    answer := none
    pending := []
    presented := 0
    consumer := Consumer.powerOn }

end Sys2Proof.Machine
end

