-- ==== Sys2Proof/Machine/Sparse.lean ====
section
/-! DEFINITION. Sparse storage: a list of (key, value) pairs in ONE canonical form, keys strictly rising, so that equal
contents are equal data. The table, the consumer's old values and the memory images use it. -/

namespace Sys2Proof.Machine

/-- The value stored under `k`; `none` for a key not listed. -/
def Sparse.get {α : Type} (m : List (Nat × α)) (k : Nat) : Option α :=
  match m with
  | [] => none
  | (j, v) :: rest => if j = k then some v else Sparse.get rest k

/-- Store `v` under `k`, at its place in the rising order. -/
def Sparse.set {α : Type} (m : List (Nat × α)) (k : Nat) (v : α) : List (Nat × α) :=
  match m with
  | [] => [(k, v)]
  | (j, w) :: rest =>
      if k < j then (k, v) :: (j, w) :: rest
      else if k = j then (k, v) :: rest
      else (j, w) :: Sparse.set rest k v

/-- The canonical form: keys strictly rising (so no key twice). A key not listed has no value, so no listed pair can
equal what an unlisted key reads as. -/
abbrev Sparse.WF {α : Type} (m : List (Nat × α)) : Prop := (m.map Prod.fst).Pairwise (· < ·)

/-- The memory the block drives, as the consumer sees it (R30): a list of (address, byte) pairs. -/
abbrev Memory := List Host.Cell

/-- The canonical form of a memory, as a Boolean. An unlisted address has no value (R35). -/
def Memory.wf (m : Memory) : Bool := decide (Sparse.WF m)

end Sys2Proof.Machine
end

