-- ==== Sys2Proof/Machine/Operands.lean ====
section
/-! DEFINITION. The operands of ENCODE and the pure function `pack` (spec/40_pack_encode.md R70 to R79), field by field,
for every legal width of the limit, access and flags ports (R4); and the reading back of a descriptor (R11, R79). Slices
beyond a port's width read 0 (R9). -/

namespace Sys2Proof.Machine

variable {lw aw fw : Nat}

/-- R70: `limit_low = limit[15:0]` -/
def packLimitLow (limit : BitVec lw) : BitVec 16 := limit.extractLsb' 0 16

/-- R71: `base_low = base[15:0]` -/
def packBaseLow (base : BitVec 32) : BitVec 16 := base.extractLsb' 0 16

/-- R72: `base_mid = base[23:16]` -/
def packBaseMid (base : BitVec 32) : BitVec 8 := base.extractLsb' 16 8

/-- R73: `access = access_operand[7:0]`, verbatim -/
def packAccess (access : BitVec aw) : BitVec 8 := access.extractLsb' 0 8

/-- R74: the low nibble of `granularity` is `limit[19:16]` -/
def packLimitNibble (limit : BitVec lw) : BitVec 4 := limit.extractLsb' 16 4

/-- R75: the high nibble of `granularity` is `flags[7:4]`, masked and never shifted (C5, D26) -/
def packFlagsNibble (flags : BitVec fw) : BitVec 4 := flags.extractLsb' 4 4

/-- R75: `granularity = {flags[7:4], limit[19:16]}` -/
def packGranularity (limit : BitVec lw) (flags : BitVec fw) : BitVec 8 :=
  packFlagsNibble flags ++ packLimitNibble limit

/-- R76: `base_high = base[31:24]` -/
def packBaseHigh (base : BitVec 32) : BitVec 8 := base.extractLsb' 24 8

/-- R77: the packed descriptor. Total: excess operand bits are dropped, never rejected (R78). -/
def pack (base : BitVec 32) (limit : BitVec lw) (access : BitVec aw) (flags : BitVec fw) : Descriptor :=
  packBaseHigh base ++ packGranularity limit flags ++ packAccess access ++ packBaseMid base ++
    packBaseLow base ++ packLimitLow limit

/-! The six fields of a descriptor (R11). -/

/-- `limit_low = d[15:0]` -/
def descLimitLow (d : Descriptor) : BitVec 16 := d.extractLsb' 0 16
/-- `base_low = d[31:16]` -/
def descBaseLow (d : Descriptor) : BitVec 16 := d.extractLsb' 16 16
/-- `base_mid = d[39:32]` -/
def descBaseMid (d : Descriptor) : BitVec 8 := d.extractLsb' 32 8
/-- `access = d[47:40]` -/
def descAccess (d : Descriptor) : BitVec 8 := d.extractLsb' 40 8
/-- `granularity = d[55:48]` -/
def descGranularity (d : Descriptor) : BitVec 8 := d.extractLsb' 48 8
/-- `base_high = d[63:56]` -/
def descBaseHigh (d : Descriptor) : BitVec 8 := d.extractLsb' 56 8

/-- The limit nibble, `d[51:48]` (R11) -/
def descLimitNibble (d : Descriptor) : BitVec 4 := d.extractLsb' 48 4
/-- The flags nibble, `d[55:52]` (R11) -/
def descFlagsNibble (d : Descriptor) : BitVec 4 := d.extractLsb' 52 4

/-- The segment base a descriptor holds, `{d[63:56], d[39:32], d[31:16]}` (R79 law 4) -/
def descBase (d : Descriptor) : BitVec 32 := descBaseHigh d ++ descBaseMid d ++ descBaseLow d
/-- The 20-bit limit a descriptor holds, `{d[51:48], d[15:0]}` (R79 law 4) -/
def descLimit (d : Descriptor) : BitVec 20 := descLimitNibble d ++ descLimitLow d

/-! Byte order, in this one place (R31, D6). PRESUMED little-endian: log 7. -/

/-- Byte `k` of a stored value, byte 0 at the lowest address: `v[8k+7:8k]`. -/
def byteOf {w : Nat} (v : BitVec w) (k : Nat) : Byte := v.extractLsb' (8 * k) 8

/-- The value of bytes in address order: the byte at the lowest address is the least significant (R9, R31). At most
eight bytes count. -/
def valueOfBytes (bs : List Byte) : BitVec 64 :=
  match bs with
  | [] => 0
  | b :: rest => (valueOfBytes rest <<< 8) ||| b.setWidth 64

/-- The 48-bit pointer record `{ptr_base, ptr_limit}` (R33). PRESUMED layout: log 8. -/
def TablePointer.packed (q : TablePointer) : BitVec 48 := q.base ++ q.limit

/-! Addresses on natural numbers (R36, R85 (b)). -/

/-- The selector of entry `i`, equally its byte offset in the table (R36). -/
def selector (i : Nat) : Nat := 8 * i

/-- The address of byte 0 of entry `i` (R32, R85). -/
def entryAddr (p : Params) (i : Nat) : Nat := p.tableBase.toNat + selector i

/-- The pointer the Pointer Assembler computes: `(trunc_16(8*N_ENTRIES - 1), TABLE_BASE)` (R100). -/
def pointerValue (p : Params) : TablePointer :=
  { limit := BitVec.ofNat 16 (8 * p.nEntries - 1), base := p.tableBase }

/-- The load event made of a pointer: `Load(PTR_ADDR, ptr_limit, ptr_base)` (R104). -/
def loadEventOf (p : Params) (q : TablePointer) : LoadEvent :=
  { ptrAddr := p.ptrAddr, limit := q.limit, base := q.base }

end Sys2Proof.Machine
end

