-- ==== Sys2Proof/Machine/Flags.lean ====
section
/-! DEFINITION. Codes and bits: the register codes of `phase` and `fault_code` (R14, R120), the status outputs (R23), and
the bit assignment of the access byte and of the flags nibble (R47). The block has no condition codes (R10). -/

namespace Sys2Proof.Machine

/-- R120: `F_INDEX = 0b01`, `F_ORDER = 0b10`, `F_ILLEGAL = 0b11`. -/
def FaultCause.code : FaultCause → BitVec 2
  | .index => 0b01
  | .order => 0b10
  | .illegal => 0b11

/-- R14: `UNINIT = 0b00`, `POPULATED = 0b01`, `INSTALLED = 0b10`. -/
def Phase.code : Phase → BitVec 2
  | .uninit => 0b00
  | .populated => 0b01
  | .installed => 0b10

/-- One bit of a flag. -/
def bit (b : Bool) : BitVec 1 := BitVec.ofBool b

/-! Status outputs (R23). -/

/-- `st_phase` -/
def stPhase (s : State) : BitVec 2 := s.phase.code
/-- `st_ptr_valid` -/
def stPtrValid (s : State) : BitVec 1 := bit s.ptrValid
/-- `st_fault` -/
def stFault (s : State) : BitVec 1 := bit s.fault
/-- `st_fault_code` -/
def stFaultCode (s : State) : BitVec 2 := s.faultCode

/-! The access byte and the flags nibble (R47). PRESUMED bit positions: log 11. The block reads no bit of them by
meaning (R46): these serve claims about the table. -/

/-- The attributes in an access byte (R47). -/
structure AccessAttrs where
  present : Bool
  ring : BitVec 2
  codeOrData : Bool
  executable : Bool
  directionOrConforming : Bool
  readableOrWritable : Bool
  accessed : Bool
  deriving DecidableEq, Repr

/-- R47: P=7, DPL=6:5, S=4, E=3, DC=2, RW=1, A=0. -/
def accessByte (t : AccessAttrs) : BitVec 8 :=
  bit t.present ++ t.ring ++ bit t.codeOrData ++ bit t.executable ++ bit t.directionOrConforming ++
    bit t.readableOrWritable ++ bit t.accessed

/-- The attributes an access byte holds (R47). -/
def accessAttrs (b : BitVec 8) : AccessAttrs :=
  { present := b.getLsbD 7
    ring := b.extractLsb' 5 2
    codeOrData := b.getLsbD 4
    executable := b.getLsbD 3
    directionOrConforming := b.getLsbD 2
    readableOrWritable := b.getLsbD 1
    accessed := b.getLsbD 0 }

/-- The attributes in the flags nibble (R47). -/
structure FlagAttrs where
  pages : Bool
  size32 : Bool
  long : Bool
  available : Bool
  deriving DecidableEq, Repr

/-- R47: G=7, D/B=6, L=5, AVL=4 of the granularity byte; the flags operand carries them in bits 7:4 (R75). -/
def flagsByte (t : FlagAttrs) : BitVec 8 :=
  bit t.pages ++ bit t.size32 ++ bit t.long ++ bit t.available ++ (0 : BitVec 4)

/-- The attributes the flags nibble of a descriptor holds (R47). -/
def flagAttrs (d : Descriptor) : FlagAttrs :=
  { pages := d.getLsbD 55, size32 := d.getLsbD 54, long := d.getLsbD 53, available := d.getLsbD 52 }

/-- The unit of a descriptor's limit in bytes: 4 KiB with the granularity flag set, else 1 (R46, R47). -/
def limitUnit (d : Descriptor) : Nat := if (flagAttrs d).pages then 4096 else 1

end Sys2Proof.Machine
end

