-- ==== Sys2Proof/Machine/Canon.lean ====
section
/-! DEFINITION. The canonical constants of the Table Builder (spec/41_table_build.md R90; R60), the canonical five entries
(R91), and the parameters of this hardware (R3, R5, R90). -/

namespace Sys2Proof.Machine

/-- `BASE_FLAT` (R90) -/
def baseFlat : BitVec 32 := 0x00000000
/-- `LIMIT_MAX` (R90, R60, D16) -/
def limitMax : BitVec 32 := 0xFFFFF
/-- `FLAGS_FLAT` (R90, R60) -/
def flagsFlat : BitVec 8 := 0xC0
/-- `ACC_KCODE` (R90, R60) -/
def accKcode : BitVec 8 := 0x9A
/-- `ACC_KDATA` (R90, R60, D15). PRESUMED: log 11. -/
def accKdata : BitVec 8 := 0x92
/-- `ACC_UCODE` (R90, R60, D15, C2). PRESUMED: log 11. -/
def accUcode : BitVec 8 := 0xFA
/-- `ACC_UDATA` (R90, R60, D15, C2). PRESUMED: log 11. -/
def accUdata : BitVec 8 := 0xF2

/-- The default of `CanonAccess` (R90). -/
def canonDefault : CanonAccess := { kdata := accKdata, ucode := accUcode, udata := accUdata }

/-- The two addresses of this hardware: OPEN (R5), held to R5's constraint for five entries. Where the two free values
break the constraint the pair of the spec's examples stands in, so the constraint holds whatever they are. Log 6. -/
def placement : Addr × Addr :=
  if PlacementLegal 5 Config.freeTableBase Config.freePtrAddr then (Config.freeTableBase, Config.freePtrAddr)
  else (0x00105000, 0x00105028)

/-- The parameters of this hardware: `N_ENTRIES = 5` (R3, C1), addresses OPEN (R5), `CanonAccess` at its default (R90). -/
def hw : Params :=
  { nEntries := 5, tableBase := placement.1, ptrAddr := placement.2, canon := canonDefault }

/-- A flat 4 GiB segment of the given access byte (R91, R61 `FLAT`). -/
def flatDescriptor (access : BitVec 8) : Descriptor := pack baseFlat limitMax access flagsFlat

/-- The null descriptor: `pack(0, 0, 0, 0)` (R91). -/
def nullDescriptor : Descriptor := pack 0 (0 : BitVec 32) (0 : BitVec 8) (0 : BitVec 8)

/-- The canonical five entries in the Table Builder's order (R91): null, kernel code, kernel data, user code, user data. -/
def canonEntries (p : Params) : List (Nat × Descriptor) :=
  [ (0, nullDescriptor),
    (1, flatDescriptor accKcode),
    (2, flatDescriptor p.canon.kdata),
    (3, flatDescriptor p.canon.ucode),
    (4, flatDescriptor p.canon.udata) ]

end Sys2Proof.Machine
end

