-- ==== Sys2Proof/Machine/Ops.lean ====
section
/-! DEFINITION. The named operations every command is made of: reading and writing the table and the pointer, what the
consumer may still see (R44), the load event (R104), TAKING A FAULT (R124), refusing (R125), and reset (R140, R141). -/

namespace Sys2Proof.Machine

/-! Reading (R19). -/

/-- `T[i]`: `none` when unwritten (R19). -/
def State.entry (s : State) (i : Nat) : Option Descriptor := Sparse.get s.table i

/-! What the consumer may still see (R44, U10). Log 12. -/

/-- Add a value to a collection without repeats. -/
def addOnce {α : Type} [DecidableEq α] (xs : List α) (x : α) : List α := if x ∈ xs then xs else xs ++ [x]

/-- The earlier values of entry `i` since the last load event. -/
def Consumer.oldOf (c : Consumer) (i : Nat) : List (Option Descriptor) := (Sparse.get c.oldEntries i).getD []

/-- Entry `i` goes from `old` to `new`: after a load event the consumer may still see `old`. Before any load event, or
where nothing changes (R145: a byte-identical rewrite is harmless), nothing is to note. -/
def Consumer.noteEntry (c : Consumer) (i : Nat) (old new : Option Descriptor) : Consumer :=
  if c.dtr = none ∨ old = new then c
  else { c with oldEntries := Sparse.set c.oldEntries i (addOnce (c.oldOf i) old) }

/-- The same for the pointer. -/
def Consumer.notePtr (c : Consumer) (old new : Option TablePointer) : Consumer :=
  if c.dtr = none ∨ old = new then c
  else { c with oldPtrs := addOnce c.oldPtrs old }

/-- A load event installs the pointer (R105); from here the consumer's view equals the images (R44). -/
def Consumer.install (q : TablePointer) : Consumer := { dtr := some q, oldEntries := [], oldPtrs := [] }

/-! Writing. -/

/-- `T[i] <- d`: all 64 bits in one indivisible write (R39, R80). -/
def State.writeEntry (s : State) (i : Nat) (d : Descriptor) : State :=
  { s with
    table := Sparse.set s.table i d
    consumer := s.consumer.noteEntry i (s.entry i) (some d) }

/-- The Table Builder's five writes (R91). -/
def State.writeCanonical (s : State) (p : Params) : State :=
  (canonEntries p).foldl (fun t e => t.writeEntry e.1 e.2) s

/-- `ptr_limit, ptr_base <- q` and `ptr_valid <- 1`: both fields in one indivisible write (R100, R39). -/
def State.writePointer (s : State) (q : TablePointer) : State :=
  { s with
    ptr := some q
    ptrValid := true
    consumer := s.consumer.notePtr s.ptr (some q) }

/-- `if phase = UNINIT then phase <- POPULATED` (R91, R92): never backwards. -/
def State.populate (s : State) : State :=
  { s with phase := if s.phase = .uninit then .populated else s.phase }

/-- `emit Load(PTR_ADDR, l, b)` (R104) and `phase <- INSTALLED` (R103): the event is appended to `loads` and the loader
installs the pointer, synchronously. -/
def State.emitLoad (s : State) (p : Params) (q : TablePointer) : State :=
  { s with
    loads := s.loads ++ [loadEventOf p q]
    phase := .installed
    consumer := Consumer.install q }

/-- The command ends with outcome `a` (R8). -/
def State.answerWith (s : State) (a : Answer) : State := { s with answer := some a }

/-! Taking a fault, and what follows it. -/

/-- R124 `raise Fault(code)`: `fault <- 1`, `fault_code <- code`, outcome `fault(code)`; every other piece of state is as
it was when the command was presented. There is no return from a fault: only reset leaves it (R126). -/
def State.raise (s : State) (c : FaultCause) : State :=
  { s with fault := true, faultCode := c.code, answer := some (.fault c) }

/-- R125: a command presented while `fault = 1` is refused: outcome `refused`, no state changes, `fault_code` keeps the
first cause. -/
def State.refuse (s : State) : State := s.answerWith .refused

/-- R123 step 1: with `fault = 1` the command is refused, whatever it is; otherwise it goes on. -/
def unlessFaulted (s : State) (k : Result) : Result := if s.fault then .next s.refuse else k

/-! Reset applied to a running block. -/

/-- What a block reset means to the consumer (R141): the installed pointer stays, the images become unwritten, and what
was there may still be seen (R44). Log 14. -/
def Consumer.afterBlockReset (c : Consumer) (table : List (Nat × Descriptor)) (ptr : Option TablePointer) : Consumer :=
  (table.foldl (fun c e => c.noteEntry e.1 (some e.2) none) c).notePtr ptr none

/-- R140, R141: reset in any state gives the block the values of R20; it does not undo what the loader installed in the
consumer. What the host has yet to present is the host's and stays. Log 14. -/
def State.applyReset (s : State) : State :=
  { State.reset with
    pending := s.pending
    presented := s.presented
    consumer := s.consumer.afterBlockReset s.table s.ptr }

end Sys2Proof.Machine
end

