-- ==== Sys2Proof/Machine/PackEncode.lean ====
section
/-! DEFINITION. The command ENCODE (spec/40_pack_encode.md R80 to R84). -/

namespace Sys2Proof.Machine

/-- R80 with parameters and port widths as arguments: refused while `fault = 1`; `F_INDEX` if `index >= N_ENTRIES`, before
anything else and whatever the other operands (R81); else `T[index] <- pack(..)` in every phase (R82). -/
def encodeCmd {lw aw fw : Nat} (p : Params) (index : BitVec 8) (base : BitVec 32) (limit : BitVec lw)
    (access : BitVec aw) (flags : BitVec fw) (s : State) : Result :=
  unlessFaulted s <|
    if p.nEntries ≤ index.toNat then .next (s.raise .index)
    else .next ((s.writeEntry index.toNat (pack base limit access flags)).answerWith .ok)

/-- ENCODE on this hardware (R80; port widths 32, 8, 8: R4). -/
def execEncode (index : BitVec 8) (base limit : BitVec 32) (access flags : BitVec 8) (s : State) : Result :=
  encodeCmd hw index base limit access flags s

end Sys2Proof.Machine
end

