-- ==== Sys2Proof/Machine/PointerLoad.lean ====
section
/-! DEFINITION. The commands MKPTR, LOAD and INIT (spec/42_pointer_load.md R100 to R108). -/

namespace Sys2Proof.Machine

/-- R100: `F_ORDER` in `UNINIT` (R101); else the pointer and `ptr_valid`, nothing else. -/
def mkptrCmd (p : Params) (s : State) : Result :=
  unlessFaulted s <|
    if s.phase = .uninit then .next (s.raise .order)
    else .next ((s.writePointer (pointerValue p)).answerWith .ok)

/-- R102: `F_ORDER` in `UNINIT` or with `ptr_valid = 0`; else the load event with the pointer's two values (R104) and
`phase <- INSTALLED` (R103). Where `ptr_valid = 1` and the pointer is unwritten, which R22 item 2 rules out, the model
stops (log 13). -/
def loadCmd (p : Params) (s : State) : Result :=
  unlessFaulted s <|
    if s.phase = .uninit ∨ s.ptrValid = false then .next (s.raise .order)
    else match s.ptr with
      | some q => .next ((s.emitLoad p q).answerWith (.okWithLoad (loadEventOf p q)))
      | none => .fault .unwrittenPointer

/-- R106: BUILD's writes, MKPTR's, then the event, in one step; accepted in every phase, no fault of its own. -/
def initCmd (p : Params) (s : State) : Result :=
  unlessFaulted s <|
    .next ((((s.writeCanonical p).writePointer (pointerValue p)).emitLoad p (pointerValue p)).answerWith
      (.okWithLoad (loadEventOf p (pointerValue p))))

/-- MKPTR on this hardware. -/
def execMkptr (s : State) : Result := mkptrCmd hw s

/-- LOAD on this hardware. -/
def execLoad (s : State) : Result := loadCmd hw s

/-- INIT on this hardware. -/
def execInit (s : State) : Result := initCmd hw s

end Sys2Proof.Machine
end

