-- ==== Sys2Proof/Machine/TableBuild.lean ====
section
/-! DEFINITION. The command BUILD (spec/41_table_build.md R91 to R97). -/

namespace Sys2Proof.Machine

/-- R91: the canonical five entries and the phase update, one atomic step (D18); no fault of its own. Entries from 5 on,
the pointer and `loads` are untouched (R92, R96). -/
def buildCmd (p : Params) (s : State) : Result :=
  unlessFaulted s (.next (((s.writeCanonical p).populate).answerWith .ok))

/-- BUILD on this hardware. -/
def execBuild (s : State) : Result := buildCmd hw s

end Sys2Proof.Machine
end

