-- ==== Sys2Proof/Machine/Dispatch.lean ====
section
/-! DEFINITION. One arm per command (spec/30_encoding.md R52). -/

namespace Sys2Proof.Machine

def exec (i : Instr) (s : State) : Host.Outcome State Fault Refusal :=
  match i with
  | .encode index base limit access flags => Sys2Proof.Machine.execEncode index base limit access flags s
  | .build => Sys2Proof.Machine.execBuild s
  | .mkptr => Sys2Proof.Machine.execMkptr s
  | .load => Sys2Proof.Machine.execLoad s
  | .init => Sys2Proof.Machine.execInit s

end Sys2Proof.Machine
end

