-- ==== Sys2Proof/Machine/Present.lean ====
section
/-! DEFINITION. Presenting a command word to the block (R23, R57): taking the next word, decoding it, and the order of the
checks (R123). -/

namespace Sys2Proof.Machine

/-- R123 steps 1 and 2 for a word with an illegal opcode: refused while `fault = 1`, else `F_ILLEGAL` (R55). -/
def illegalCmd (s : State) : Result := unlessFaulted s (.next (s.raise .illegal))

/-- The command of a word is carried out (R58, R123). -/
def runWord (cw : CommandWord) (s : State) : Result :=
  match decode cw with
  | .ok i => exec i s
  | .error _ => illegalCmd s

/-- The host presents the word it has next: it leaves the host's list and is counted. -/
def State.accept (s : State) (rest : List CommandWord) : State :=
  { s with pending := rest, presented := s.presented + 1 }

/-- One transaction (R8). With no word presented the block waits (R140) and nothing changes. Log 2. -/
def transact (s : State) : Result :=
  match s.pending with
  | [] => .next s
  | cw :: rest => runWord cw (s.accept rest)

/-- The state in which the host presents `cw` next. -/
def State.present (s : State) (cw : CommandWord) : State := { s with pending := cw :: s.pending }

end Sys2Proof.Machine
end

