-- ==== Sys2Proof/Machine/Step.lean ====
section
/-! DEFINITION. One step of the machine: one transaction (R7, R8). -/

namespace Sys2Proof.Machine

def step (s : State) : Host.Outcome State Fault Refusal := transact s

/-- The state `s` with the given instruction where the next step takes its command: presented next on the command port
(log 2). Bits above `nbits` are 0. -/
def State.withFetchWord (s : State) (nbits w : Nat) : State := s.present (BitVec.ofNat 96 (w % 2 ^ nbits))

/-- `k` steps, stopping at the first stop of the model. -/
def runSteps : Nat → State → Host.Outcome State Fault Refusal
  | 0, s => .next s
  | k + 1, s =>
    match step s with
    | .next t => runSteps k t
    | .fault r => .fault r
    | .refused r => .refused r

end Sys2Proof.Machine
end

