-- ==== Sys2Proof/Machine/Assembler.lean ====
section
/-! DEFINITION. The assembler of spec/30_encoding.md R59 to R61: text of one line, named constants, pseudo-commands, and
the command word. Text is a list of characters. Details the spec leaves open: log 17. -/

namespace Sys2Proof.Machine

/-- Why a line is refused. -/
inductive AsmError where
  /-- no mnemonic of R59 or R61 -/
  | unknownMnemonic
  /-- an operand that is neither a number (R9) nor a named constant (R60) -/
  | badOperand
  /-- not the mnemonic's number of operands -/
  | badOperandCount
  /-- an operand that does not fit its field (R59) -/
  | operandTooWide
  deriving DecidableEq, Repr

/-- R61: a pseudo-command is one ENCODE; every other line stands for itself. -/
def expandLine : AsmLine → AsmLine
  | .nulld index => .encode index 0 0 0 0
  | .flat index access => .encode index 0 limitMax.toNat access flagsFlat.toNat
  | .encode index base limit access flags => .encode index base limit access flags
  | .build => .build
  | .mkptr => .mkptr
  | .load => .load
  | .init => .init

/-- The command of a line whose operands fit: a pseudo-command through its expansion. -/
def lineInstr (l : AsmLine) : Instr :=
  match expandLine l with
  | .encode index base limit access flags =>
      .encode (BitVec.ofNat 8 index) (BitVec.ofNat 32 base) (BitVec.ofNat 32 limit) (BitVec.ofNat 8 access)
        (BitVec.ofNat 8 flags)
  | .build => .build
  | .mkptr => .mkptr
  | .load => .load
  | .init => .init
  | .nulld index => .encode (BitVec.ofNat 8 index) 0 0 0 0
  | .flat index access => .encode (BitVec.ofNat 8 index) 0 limitMax (BitVec.ofNat 8 access) flagsFlat

/-- R59: an operand that does not fit its field is refused; the word is made by the canonical encoder (R53, R58). -/
def assemble (l : AsmLine) : Except AsmError CommandWord :=
  if l.wellFormed then .ok (encode (lineInstr l)) else .error .operandTooWide

/-! Reading a line. -/

/-- White space between the parts of a line. -/
def isBlank (c : Char) : Bool := c == ' ' || c == '\t'

/-- Text without white space at its two ends. -/
def trim (cs : List Char) : List Char := ((cs.dropWhile isBlank).reverse.dropWhile isBlank).reverse

/-- The parts of a text between commas; `acc` holds the part being read, reversed. -/
def splitCommas (acc : List Char) : List Char → List (List Char)
  | [] => [acc.reverse]
  | c :: cs => if c == ',' then acc.reverse :: splitCommas [] cs else splitCommas (c :: acc) cs

/-- The value of a hexadecimal digit. -/
def digitValue (c : Char) : Option Nat :=
  let n := c.toNat
  if 48 ≤ n ∧ n ≤ 57 then some (n - 48)
  else if 65 ≤ n ∧ n ≤ 70 then some (n - 55)
  else if 97 ≤ n ∧ n ≤ 102 then some (n - 87)
  else none

/-- The value of one or more digits in the given base. -/
def digitsValue (radix : Nat) (acc : Nat) : List Char → Option Nat
  | [] => some acc
  | c :: cs =>
      match digitValue c with
      | some d => if d < radix then digitsValue radix (acc * radix + d) cs else none
      | none => none

/-- A number: `0x` hexadecimal, `0b` binary, everything else decimal (R9). DESIGN CHOICE (log 17): a digit-group
underscore, as the spec's prose writes in `0b1001_1010` (R47), is refused; R9 does not name it. -/
def numberValue : List Char → Option Nat
  | [] => none
  | '0' :: 'x' :: d :: ds => digitsValue 16 0 (d :: ds)
  | '0' :: 'b' :: d :: ds => digitsValue 2 0 (d :: ds)
  | ds => digitsValue 10 0 ds

/-- The named constants of R60. -/
def namedConstants : List (List Char × Nat) :=
  [ (['L', 'I', 'M', 'I', 'T', '_', 'M', 'A', 'X'], limitMax.toNat),
    (['F', 'L', 'A', 'G', 'S', '_', 'F', 'L', 'A', 'T'], flagsFlat.toNat),
    (['A', 'C', 'C', '_', 'K', 'C', 'O', 'D', 'E'], accKcode.toNat),
    (['A', 'C', 'C', '_', 'K', 'D', 'A', 'T', 'A'], accKdata.toNat),
    (['A', 'C', 'C', '_', 'U', 'C', 'O', 'D', 'E'], accUcode.toNat),
    (['A', 'C', 'C', '_', 'U', 'D', 'A', 'T', 'A'], accUdata.toNat) ]

/-- An operand: a named constant or a number. -/
def operandValue (cs : List Char) : Option Nat :=
  match namedConstants.find? (fun c => c.1 == cs) with
  | some c => some c.2
  | none => numberValue cs

/-- All operands, or none if one is unreadable. -/
def operandValues : List (List Char) → Option (List Nat)
  | [] => some []
  | o :: os =>
      match operandValue o, operandValues os with
      | some v, some vs => some (v :: vs)
      | _, _ => none

/-- The mnemonics of R59 and R61, upper case. -/
inductive AsmWord where
  | encode
  | build
  | mkptr
  | load
  | init
  | nulld
  | flat
  deriving DecidableEq, Repr

/-- Their spelling. -/
def asmWords : List (List Char × AsmWord) :=
  [ (['E', 'N', 'C', 'O', 'D', 'E'], .encode), (['B', 'U', 'I', 'L', 'D'], .build), (['M', 'K', 'P', 'T', 'R'], .mkptr),
    (['L', 'O', 'A', 'D'], .load), (['I', 'N', 'I', 'T'], .init), (['N', 'U', 'L', 'L', 'D'], .nulld),
    (['F', 'L', 'A', 'T'], .flat) ]

/-- A mnemonic with its operands (R59, R61). -/
def asmLineOf (w : AsmWord) (ops : List Nat) : Option AsmLine :=
  match w, ops with
  | .encode, [index, base, limit, access, flags] => some (.encode index base limit access flags)
  | .build, [] => some .build
  | .mkptr, [] => some .mkptr
  | .load, [] => some .load
  | .init, [] => some .init
  | .nulld, [index] => some (.nulld index)
  | .flat, [index, access] => some (.flat index access)
  | _, _ => none

/-- The operand texts after a mnemonic. -/
def operandTexts (cs : List Char) : List (List Char) :=
  if trim cs = [] then [] else (splitCommas [] cs).map trim

/-- R59: one command per line, `;` starts a comment; a line with no command gives none. -/
def parseLine (cs : List Char) : Except AsmError (Option AsmLine) :=
  let text := trim (cs.takeWhile (· != ';'))
  if text = [] then .ok none
  else
    match asmWords.find? (fun w => w.1 == text.takeWhile (fun c => !isBlank c)) with
    | none => .error .unknownMnemonic
    | some w =>
      match operandValues (operandTexts (text.dropWhile (fun c => !isBlank c))) with
      | none => .error .badOperand
      | some ops =>
        match asmLineOf w.2 ops with
        | none => .error .badOperandCount
        | some l => .ok (some l)

/-- A line of text to its command word; a line with no command gives none. -/
def assembleLine (cs : List Char) : Except AsmError (Option CommandWord) :=
  match parseLine cs with
  | .error e => .error e
  | .ok none => .ok none
  | .ok (some l) =>
    match assemble l with
    | .error e => .error e
    | .ok w => .ok (some w)

/-- A listing, one command per line, to the command words the host presents in order (R59). -/
def assembleProgram : List (List Char) → Except AsmError (List CommandWord)
  | [] => .ok []
  | l :: ls =>
      match assembleLine l, assembleProgram ls with
      | .ok (some w), .ok ws => .ok (w :: ws)
      | .ok none, .ok ws => .ok ws
      | .error e, _ => .error e
      | _, .error e => .error e

/-- The Table Builder's work as five lines (R61, R93). -/
def builderLines : List AsmLine :=
  [ .nulld 0, .flat 1 accKcode.toNat, .flat 2 accKdata.toNat, .flat 3 accUcode.toNat, .flat 4 accUdata.toNat ]

end Sys2Proof.Machine
end

