-- ==== Sys2Proof/Machine/Image.lean ====
section
/-! DEFINITION. The two memory images (spec/20_memory.md R30 to R35), the consumer's reads of them, and what the consumer
may see of a write made after the last load event (R44, U10). -/

namespace Sys2Proof.Machine

/-- Where an address of the consumer's space lies in the images. -/
inductive Place where
  /-- byte `k` of entry `i` (R32) -/
  | entry (i k : Nat)
  /-- byte `k` of the pointer record (R33) -/
  | pointer (k : Nat)
  deriving DecidableEq, Repr

/-- R32, R33: the table image is `8*N_ENTRIES` bytes at `TABLE_BASE`, the pointer image 6 bytes at `PTR_ADDR`; any other
address is not driven by the block (R30). -/
def locate (p : Params) (a : Nat) : Option Place :=
  if p.tableBase.toNat ≤ a ∧ a < p.tableBase.toNat + 8 * p.nEntries then
    some (.entry ((a - p.tableBase.toNat) / 8) ((a - p.tableBase.toNat) % 8))
  else if p.ptrAddr.toNat ≤ a ∧ a < p.ptrAddr.toNat + 6 then
    some (.pointer (a - p.ptrAddr.toNat))
  else none

/-- THE READ OF ONE BYTE of the images as they stand (R32, R33): `none` where the byte has no value. -/
def imageByte (p : Params) (s : State) (a : Nat) : Option Byte :=
  match locate p a with
  | some (.entry i k) => (s.entry i).map (byteOf · k)
  | some (.pointer k) => s.ptr.map fun q => byteOf q.packed k
  | none => none

/-- The addresses of the two images, rising. -/
def imageAddrs (p : Params) : List Nat :=
  if p.ptrAddr.toNat < p.tableBase.toNat then
    List.range' p.ptrAddr.toNat 6 ++ List.range' p.tableBase.toNat (8 * p.nEntries)
  else
    List.range' p.tableBase.toNat (8 * p.nEntries) ++ List.range' p.ptrAddr.toNat 6

/-- The memory the block drives, as canonical data: the bytes that have a value, by rising address (R30). -/
def State.memory (s : State) (p : Params) : Memory :=
  (imageAddrs p).filterMap fun a => (imageByte p s a).map fun b => (a, b)

/-- The `n` bytes from `a` on, in address order, each through `f`; the first stop stops the read. DESIGN CHOICE (log 19):
addresses are counted on natural numbers and do not wrap, so a read that runs past `2^32 - 1` leaves the images and
stops; R34 does not say whether such a read goes on at address 0. -/
def readBytes (f : Nat → Except Fault Byte) (a : Nat) : Nat → Except Fault (List Byte)
  | 0 => .ok []
  | n + 1 =>
      match f a with
      | .error e => .error e
      | .ok b =>
        match readBytes f (a + 1) n with
        | .error e => .error e
        | .ok bs => .ok (b :: bs)

/-- A read of 1 to 8 bytes at any alignment, served byte by byte (R34, R38), as one little-endian value (R31)
zero-extended to 64 bits (log 9); no wrap past the last address (log 19). -/
def readWith (f : Nat → Except Fault Byte) (a : Addr) (n : Nat) : Except Fault (BitVec 64) :=
  if 1 ≤ n ∧ n ≤ 8 then
    match readBytes f a.toNat n with
    | .error e => .error e
    | .ok bs => .ok (valueOfBytes bs)
  else .error (.badWidth n)

/-- One byte of the images for a read: a byte with no value is a fault (R35), and so is an address outside (log 9). -/
def byteForRead (p : Params) (s : State) (a : Nat) : Except Fault Byte :=
  if locate p a = none then .error (.outsideImages a)
  else match imageByte p s a with
    | some b => .ok b
    | none => .error (.unwrittenByte a)

/-- R9 `MemRead(addr, n)`: the images as they stand at the time of the read (R34). -/
def memRead (p : Params) (s : State) (a : Addr) (n : Nat) : Except Fault (BitVec 64) :=
  readWith (byteForRead p s) a n

/-! The consumer's own view after a load event (R44, U10). -/

/-- Every value the byte at `a` may have to the consumer: its values since the last load event, the present one last
(`none`: no value). Empty outside the images. -/
def byteViews (p : Params) (s : State) (a : Nat) : List (Option Byte) :=
  match locate p a with
  | some (.entry i k) => (s.consumer.oldOf i ++ [s.entry i]).map fun d => d.map (byteOf · k)
  | some (.pointer k) => (s.consumer.oldPtrs ++ [s.ptr]).map fun q => q.map fun r => byteOf r.packed k
  | none => []

/-- The bytes among the views. -/
def viewBytes (p : Params) (s : State) (a : Nat) : List Byte := (byteViews p s a).filterMap id

/-- One byte as the consumer sees it: a FREE CHOICE among its views (R44: a model must not assume the consumer sees a
post-load write, and must not assume it does not). If one of them is no value, the read faults (R35). Log 12. -/
def consumerByte (p : Params) (s : State) (a : Nat) : Except Fault Byte :=
  if locate p a = none then .error (.outsideImages a)
  else if none ∈ byteViews p s a then .error (.unwrittenByte a)
  else match (viewBytes p s a)[Config.consumerPick s.presented a % (viewBytes p s a).length]? with
    | some b => .ok b
    | none => .error (.unwrittenByte a)

/-- A read by the consumer (R34): it is entitled to read only after a load event (R34, R151; log 10). -/
def consumerRead (p : Params) (s : State) (a : Addr) (n : Nat) : Except Fault (BitVec 64) :=
  if s.consumer.dtr = none then .error .notLoaded else readWith (consumerByte p s) a n

end Sys2Proof.Machine
end

