-- ==== Sys2Proof/Safety.lean ====
section
/-! DEFINITION. What counts as a safe run: the invariants of R22, the good end of R143, and the host's duties (R146 to
R148), in the terms the statements use. -/

namespace Sys2Proof.Machine

/-- A state with `fault = 1` is *gone wrong* (R124). -/
abbrev GoneWrong (s : State) : Prop := s.fault = true

/-- The end of a good run (R143): `fault = 0` and `phase = INSTALLED`. -/
abbrev GoodEnd (s : State) : Prop := s.fault = false ∧ s.phase = .installed

/-- Every entry the pointer's limit covers is written (the host's duty of R148). -/
abbrev FullyWritten (p : Params) (s : State) : Prop := ∀ i, i < p.nEntries → s.entry i ≠ none

/-- Entry 0 is the all-zero null descriptor (R13; the host's duty of R147). -/
abbrev NullKept (s : State) : Prop := s.entry 0 = some 0

/-- Exactly one load event (the host's duty of R146). -/
abbrev LoadedOnce (s : State) : Prop := s.loads.length = 1

/-- The block's storage is in its canonical form: the table's indices strictly rising and in range (R12). -/
structure StorageOk (p : Params) (s : State) : Prop where
  table_rising : Sparse.WF s.table
  table_inRange : ∀ e ∈ s.table, e.1 < p.nEntries

/-- R22 items 2 to 6, with R17's "`fault_code` is `0b00` while `fault = 0`" and R120's codes. Item 1 holds by the type of
`phase`, item 7 is a statement about a step. -/
structure Lifecycle (p : Params) (s : State) : Prop where
  /-- item 2, first half -/
  valid_iff_written : s.ptrValid = true ↔ s.ptr ≠ none
  /-- item 2, second half -/
  pointer_correct : ∀ q, s.ptr = some q → q = pointerValue p
  /-- item 3 -/
  valid_populated : s.ptrValid = true → s.phase ≠ .uninit
  /-- item 4 -/
  installed_loaded : s.phase = .installed → s.ptrValid = true ∧ s.loads ≠ []
  /-- item 5 -/
  populated_written : s.phase ≠ .uninit → ∀ i, i < 5 → s.entry i ≠ none
  /-- item 6, first half -/
  loaded_installed : s.loads ≠ [] → s.phase = .installed
  /-- item 6, second half -/
  events_correct : ∀ e ∈ s.loads, e = loadEventOf p (pointerValue p)
  /-- R17 -/
  code_when_clear : s.fault = false → s.faultCode = 0b00
  /-- R120 -/
  code_when_set : s.fault = true → s.faultCode ≠ 0b00

/-- The environment data agree with the block (R105, R44; logs 12, 15). -/
structure ConsumerOk (p : Params) (s : State) : Prop where
  old_rising : Sparse.WF s.consumer.oldEntries
  old_inRange : ∀ e ∈ s.consumer.oldEntries, e.1 < p.nEntries
  before_load : s.consumer.dtr = none → s.consumer.oldEntries = [] ∧ s.consumer.oldPtrs = []
  installed_pointer : ∀ q, s.consumer.dtr = some q → q = pointerValue p
  after_load : s.loads ≠ [] → s.consumer.dtr ≠ none
  /-- R35: after a load event no earlier value of the canonical five entries or of the pointer is *unwritten* -/
  old_written : s.loads ≠ [] → (∀ e ∈ s.consumer.oldEntries, e.1 < 5 → none ∉ e.2) ∧ none ∉ s.consumer.oldPtrs

/-- The invariant every step keeps. -/
structure Inv (p : Params) (s : State) : Prop where
  storage : StorageOk p s
  lifecycle : Lifecycle p s
  environment : ConsumerOk p s

/-! The vocabulary of frames: what a command leaves alone. -/

/-- The pointer and `ptr_valid` are as before. -/
abbrev SamePointer (s t : State) : Prop := t.ptr = s.ptr ∧ t.ptrValid = s.ptrValid

/-- `fault` and `fault_code` are as before. -/
abbrev SameFault (s t : State) : Prop := t.fault = s.fault ∧ t.faultCode = s.faultCode

/-- The host's side is as before: the words yet to present and their count. -/
abbrev SamePort (s t : State) : Prop := t.pending = s.pending ∧ t.presented = s.presented

/-- Every table entry is as before. -/
abbrev SameTable (s t : State) : Prop := ∀ i, t.entry i = s.entry i

/-- Every byte of the memory outside `[lo, lo + n)` reads as before (R30). -/
abbrev SameMemoryOutside (p : Params) (lo n : Nat) (s t : State) : Prop :=
  ∀ a, ¬(lo ≤ a ∧ a < lo + n) → imageByte p t a = imageByte p s a

/-- Every byte of the memory reads as before. -/
abbrev SameMemory (p : Params) (s t : State) : Prop := ∀ a, imageByte p t a = imageByte p s a

/-- The command sequences that raise no fault (95_test_vectors.md part 4 item 6): every opcode is legal, every ENCODE is
in bounds, the first MKPTR follows a BUILD or INIT, the first LOAD follows a MKPTR or INIT. `populated` and `pointed` say
whether a BUILD or INIT, and whether a MKPTR or INIT, has gone before. -/
def faultFree (p : Params) (populated pointed : Bool) : List CommandWord → Bool
  | [] => true
  | cw :: rest =>
      match decode cw with
      | .error _ => false
      | .ok (.encode index _ _ _ _) => decide (index.toNat < p.nEntries) && faultFree p populated pointed rest
      | .ok .build => faultFree p true pointed rest
      | .ok .mkptr => populated && faultFree p populated true rest
      | .ok .load => populated && pointed && faultFree p populated pointed rest
      | .ok .init => faultFree p true true rest

end Sys2Proof.Machine
end

