-- ==== Sys2Proof/Certificates/Slice0/Obligations.lean ====
section
/-! DEFINITION. The statements about this model, for the provers. `R<n>` is a numbered rule of spec/, `D<n>` a decision of
spec/92_eei_decisions.md. The block's outcome of a command (R8) is the field `answer`, and a fault or a refusal of the
block is a NEXT state (log 1). Bytes of memory are read through `imageByte`. -/

open Sys2Proof Sys2Proof.Machine

/-! ### Encoding -/

/-- Words of spec/95_test_vectors.md decode to what they stand for there (V1, V49a, V51, V60, V70, V84, V80 to V82).
-/
def Obligations.SpecWordsDecodeAsListed : Prop :=
  decode 0x010100000000000FFFFF9AC0 = .ok (.encode 1 0 0xFFFFF 0x9A 0xC0) ∧
  decode 0x010212345678000ABCDE5A30 = .ok (.encode 2 0x12345678 0xABCDE 0x5A 0x30) ∧
  decode 0x02AADEADBEEF123456785566 = .ok .build ∧
  decode 0x030000000000000000000000 = .ok .mkptr ∧
  decode 0x040000000000000000000000 = .ok .load ∧
  decode 0x05FFFFFFFFFFFFFFFFFFFFFF = .ok .init ∧
  decode 0x000000000000000000000000 = .error (.illegalOp 0x00) ∧
  decode 0x060000000000000000000000 = .error (.illegalOp 0x06) ∧
  decode 0xFF0000000000000000000000 = .error (.illegalOp 0xFF)

/-- R54: the operands of ENCODE are the word's fields, without sign extension, scaling or shifting, and the narrowing
is not part of decoding; `limit` bits 31:20 and `flags` bits 3:0 are legal to set and have no effect. -/
def Obligations.EncodeOperandsAreWordFields : Prop :=
  (∀ cw : CommandWord, cw.extractLsb' 88 8 = 0x01 →
    ∃ index base limit access flags, decode cw = .ok (.encode index base limit access flags) ∧
      index.toNat = cw.toNat / 2 ^ 80 % 2 ^ 8 ∧ base.toNat = cw.toNat / 2 ^ 48 % 2 ^ 32 ∧
      limit.toNat = cw.toNat / 2 ^ 16 % 2 ^ 32 ∧ access.toNat = cw.toNat / 2 ^ 8 % 2 ^ 8 ∧
      flags.toNat = cw.toNat % 2 ^ 8) ∧
  (∀ (s : State) (cw cw' : CommandWord) (rest : List CommandWord), cw.extractLsb' 88 8 = 0x01 →
    cw.extractLsb' 48 48 = cw'.extractLsb' 48 48 → cw.extractLsb' 4 32 = cw'.extractLsb' 4 32 →
      step { s with pending := cw :: rest } = step { s with pending := cw' :: rest })

/-- Decoding a canonical word gives the command back with every operand, and the canonical encoder gives back every
ENCODE word and every operand-less word whose low 88 bits are zero (30_encoding.md section 6). -/
def Obligations.DecodeEncodeRoundTrip : Prop :=
  (∀ i : Instr, i.WellFormed → decode (encode i) = .ok i) ∧
  (∀ cw index base limit access flags,
    decode cw = .ok (.encode index base limit access flags) → encode (.encode index base limit access flags) = cw) ∧
  (∀ (cw : CommandWord) i, decode cw = .ok i → cw.extractLsb' 0 88 = 0 → encode i = cw)

/-- R52 (the spec's decision D3): the `op` field alone selects the command: the match and mask rows of the opcode map
decide the decoder's command, two words with one `op` decode to one mnemonic, and the five opcodes are 0x01 to 0x05.
-/
def Obligations.OpcodeMapSelectsCommand : Prop :=
  (∀ cw r, r ∈ opcodeRows → (r.hits cw = true ↔ ∃ i, decode cw = .ok i ∧ i.mnemonic = r.mnemonic)) ∧
  (∀ cw cw' i, fieldOp cw = fieldOp cw' → decode cw = .ok i → ∃ i', decode cw' = .ok i' ∧ i'.mnemonic = i.mnemonic) ∧
  (∀ cw i, decode cw = .ok i → fieldOp cw = i.opcode) ∧
  (∀ index base limit access flags, (Instr.encode index base limit access flags).opcode = 0x01) ∧
  Instr.build.opcode = 0x02 ∧ Instr.mkptr.opcode = 0x03 ∧ Instr.load.opcode = 0x04 ∧ Instr.init.opcode = 0x05

/-- R53 (the spec's decision D3): the 88 operand bits of BUILD, MKPTR, LOAD and INIT are ignored: any value is
accepted and none changes the command; the canonical encoder leaves them zero. -/
def Obligations.OperandlessFieldsIgnored : Prop :=
  (∀ cw : CommandWord, fieldOp cw = 0x02 → decode cw = .ok .build) ∧
  (∀ cw : CommandWord, fieldOp cw = 0x03 → decode cw = .ok .mkptr) ∧
  (∀ cw : CommandWord, fieldOp cw = 0x04 → decode cw = .ok .load) ∧
  (∀ cw : CommandWord, fieldOp cw = 0x05 → decode cw = .ok .init) ∧
  (∀ i : Instr, i = .build ∨ i = .mkptr ∨ i = .load ∨ i = .init → (encode i).extractLsb' 0 88 = 0)

/-- R50, R57 (the spec's decision D3): a command word is 12 bytes, `op` first and `flags` last; the byte form loses
nothing and decoding it is decoding the word. The last clause, that a byte string of any other length is rejected by
name, is the MODEL'S CHOICE (DESIGN CHOICE, log 18): the spec has no other length. -/
def Obligations.ByteFormOfCommandWords : Prop :=
  (∀ cw, (bytesOfWord cw).length = 12 ∧ (bytesOfWord cw).head? = some (fieldOp cw) ∧
    (bytesOfWord cw).getLast? = some (fieldFlags cw) ∧ wordOfBytes (bytesOfWord cw) = cw ∧
    decodeBytes (bytesOfWord cw) = decode cw) ∧
  (∀ bs, bs.length ≠ 12 → decodeBytes bs = .error (.badLength bs.length))

/-! ### The pack function -/

/-- R70 to R74, R76: each of these fields of the packed descriptor is the stated slice of one operand, for every width
of the limit, access and flags ports; bits 20 and above of the limit reach no field at all. -/
def Obligations.PackedFieldsAreOperandSlices : Prop :=
  ∀ (lw aw fw : Nat) (base : BitVec 32) (limit : BitVec lw) (access : BitVec aw) (flags : BitVec fw),
    (pack base limit access flags).extractLsb' 0 16 = limit.extractLsb' 0 16 ∧
    (pack base limit access flags).extractLsb' 16 16 = base.extractLsb' 0 16 ∧
    (pack base limit access flags).extractLsb' 32 8 = base.extractLsb' 16 8 ∧
    (pack base limit access flags).extractLsb' 40 8 = access.extractLsb' 0 8 ∧
    (pack base limit access flags).extractLsb' 48 4 = limit.extractLsb' 16 4 ∧
    (pack base limit access flags).extractLsb' 56 8 = base.extractLsb' 24 8 ∧
    (∀ limit' : BitVec lw, limit'.extractLsb' 0 20 = limit.extractLsb' 0 20 →
      pack base limit' access flags = pack base limit access flags)

/-- R75 (the spec's reading D26): the granularity byte is `{flags[7:4], limit[19:16]}`, which is the source's formula;
its two terms have no bit in common, so `|` is also `+` (R85 (a)). -/
def Obligations.GranularityByteIsSourceFormula : Prop :=
  ∀ (lw aw fw : Nat) (base : BitVec 32) (limit : BitVec lw) (access : BitVec aw) (flags : BitVec fw),
    (pack base limit access flags).extractLsb' 48 8 = flags.extractLsb' 4 4 ++ limit.extractLsb' 16 4 ∧
    (pack base limit access flags).extractLsb' 48 8 =
      (((limit >>> 16).setWidth 8 &&& (0x0F : BitVec 8)) ||| (flags.setWidth 8 &&& (0xF0 : BitVec 8))) ∧
    ((limit >>> 16).setWidth 8 &&& (0x0F : BitVec 8)) &&& (flags.setWidth 8 &&& (0xF0 : BitVec 8)) = 0 ∧
    (pack base limit access flags).extractLsb' 48 8 =
      ((limit >>> 16).setWidth 8 &&& (0x0F : BitVec 8)) + (flags.setWidth 8 &&& (0xF0 : BitVec 8))

/-- R78, R128: excess operand bits are masked, never rejected: `pack` of any operands is `pack` of the masked ones, no
other bit of an operand is lost, and ENCODE with excess bits ends exactly as ENCODE without them: no fault, no status
bit, no difference in outcome. -/
def Obligations.ExcessOperandBitsAreMasked : Prop :=
  (∀ (lw aw fw : Nat) (base : BitVec 32) (limit : BitVec lw) (access : BitVec aw) (flags : BitVec fw),
    pack base limit access flags =
      pack base (limit.extractLsb' 0 20) (access.extractLsb' 0 8) (flags.extractLsb' 4 4 ++ (0 : BitVec 4))) ∧
  (∀ (lw aw fw : Nat) (base base' : BitVec 32) (limit limit' : BitVec lw) (access access' : BitVec aw)
    (flags flags' : BitVec fw),
    pack base limit access flags = pack base' limit' access' flags' →
      base = base' ∧ limit.extractLsb' 0 20 = limit'.extractLsb' 0 20 ∧
      access.extractLsb' 0 8 = access'.extractLsb' 0 8 ∧ flags.extractLsb' 4 4 = flags'.extractLsb' 4 4) ∧
  (∀ (lw aw fw : Nat) (p : Params) (index : BitVec 8) (base : BitVec 32) (limit : BitVec lw) (access : BitVec aw)
    (flags : BitVec fw) (s : State),
    encodeCmd p index base limit access flags s =
      encodeCmd p index base (limit.extractLsb' 0 20) (access.extractLsb' 0 8)
        (flags.extractLsb' 4 4 ++ (0 : BitVec 4)) s) ∧
  (∀ (index : BitVec 8) (base limit : BitVec 32) (access flags : BitVec 8) (s : State),
    exec (.encode index base limit access flags) s =
      exec (.encode index base (limit &&& 0xFFFFF) access (flags &&& 0xF0)) s)

/-- R79 laws 1, 4 and 5 (4 and 5 the spec's inference): `pack` is a bijection between (base, limit[19:0], access[7:0],
flags[7:4]) and the 64-bit values; a descriptor reads back as the operands it was packed from. -/
def Obligations.PackIsBijection : Prop :=
  pack 0 (0 : BitVec 32) (0 : BitVec 8) (0 : BitVec 8) = 0 ∧
  (∀ (lw aw fw : Nat) (base : BitVec 32) (limit : BitVec lw) (access : BitVec aw) (flags : BitVec fw),
    descBase (pack base limit access flags) = base ∧
    descLimit (pack base limit access flags) = limit.extractLsb' 0 20 ∧
    descAccess (pack base limit access flags) = access.extractLsb' 0 8 ∧
    descFlagsNibble (pack base limit access flags) = flags.extractLsb' 4 4) ∧
  (∀ d : Descriptor, pack (descBase d) (descLimit d) (descAccess d) (descFlagsNibble d ++ (0 : BitVec 4)) = d)

/-- R79 law 3: limit bits above bit 19 alter nothing: adding a multiple of `2^20` to the limit gives the same
descriptor, for every port width of at least 20. -/
def Obligations.LimitOverflowDoesNotLeak : Prop :=
  ∀ (lw aw fw : Nat) (base : BitVec 32) (limit x : BitVec lw) (access : BitVec aw) (flags : BitVec fw), 20 ≤ lw →
    pack base (limit + x * BitVec.ofNat lw (2 ^ 20)) access flags = pack base limit access flags

/-! ### ENCODE -/

/-- R80, with the spec's decisions D9 (`F_INDEX`), D12 (refused), D4 (five entries) and D6 (byte order, log 7):
refused while `fault = 1`; `F_INDEX` out of bounds; else entry `index` takes all 64 bits of `pack`, the eight bytes at
`TABLE_BASE + 8*index` take its bytes, the outcome is ok, and NOTHING else changes: no other entry, no register, no
other byte. -/
def Obligations.EncodeWritesOneEntry : Prop :=
  ∀ (s : State) (index : BitVec 8) (base limit : BitVec 32) (access flags : BitVec 8),
    (s.fault = true →
      exec (.encode index base limit access flags) s = .next { s with answer := some .refused }) ∧
    (s.fault = false → hw.nEntries ≤ index.toNat →
      exec (.encode index base limit access flags) s =
        .next { s with fault := true, faultCode := 0b01, answer := some (.fault .index) }) ∧
    (s.fault = false → index.toNat < hw.nEntries →
      ∃ t, exec (.encode index base limit access flags) s = .next t ∧
        t.entry index.toNat = some (pack base limit access flags) ∧
        (∀ j, j ≠ index.toNat → t.entry j = s.entry j) ∧
        SamePointer s t ∧ t.phase = s.phase ∧ SameFault s t ∧ t.loads = s.loads ∧ SamePort s t ∧
        t.consumer.dtr = s.consumer.dtr ∧ t.answer = some .ok ∧
        (∀ k, k < 8 →
          imageByte hw t (entryAddr hw index.toNat + k) = some (byteOf (pack base limit access flags) k)) ∧
        SameMemoryOutside hw (entryAddr hw index.toNat) 8 s t)

/-- R81 (the spec's decision D9): for every table length, an index `>= N_ENTRIES` faults whatever the other operands,
writes no entry and no byte, and no later command executes; here indices 0 to 4 are in bounds and 5 to 255 fault. -/
def Obligations.IndexOutOfBoundsFaults : Prop :=
  (∀ (p : Params) (s : State) (index : BitVec 8) (base limit : BitVec 32) (access flags : BitVec 8),
    s.fault = false → p.nEntries ≤ index.toNat →
      ∃ t, encodeCmd p index base limit access flags s = .next t ∧
        t.fault = true ∧ t.faultCode = 0b01 ∧ t.answer = some (.fault .index) ∧
        SameTable s t ∧ SamePointer s t ∧ t.phase = s.phase ∧ t.loads = s.loads ∧ t.consumer = s.consumer ∧
        SameMemory p s t ∧ (∀ i, exec i t = .next { t with answer := some .refused })) ∧
  (∀ (s : State) (index : BitVec 8) (base limit : BitVec 32) (access flags : BitVec 8), s.fault = false →
    ∃ t, exec (.encode index base limit access flags) s = .next t ∧
      (t.answer = some .ok ↔ index.toNat ≤ 4) ∧ (t.answer = some (.fault .index) ↔ 5 ≤ index.toNat))

/-- R84 (the spec's inference): the last ENCODE to an index wins, ENCODEs to different indices commute, and repeating
one leaves the state as it is. Commuting whole states needs the canonical form of the two lists, which the invariant
gives. -/
def Obligations.EncodesOverwriteAndCommute : Prop :=
  ∀ (s : State) (i j : BitVec 8) (b b' l l' : BitVec 32) (a a' f f' : BitVec 8),
    s.fault = false → i.toNat < hw.nEntries → j.toNat < hw.nEntries →
      (∃ t u v, exec (.encode i b l a f) s = .next t ∧ exec (.encode i b' l' a' f') t = .next u ∧
        exec (.encode i b' l' a' f') s = .next v ∧ SameTable v u ∧ SameMemory hw v u) ∧
      (i ≠ j → Sparse.WF s.table → Sparse.WF s.consumer.oldEntries →
        ∃ t t' u, exec (.encode i b l a f) s = .next t ∧ exec (.encode j b' l' a' f') t = .next u ∧
          exec (.encode j b' l' a' f') s = .next t' ∧ exec (.encode i b l a f) t' = .next u) ∧
      (∃ t, exec (.encode i b l a f) s = .next t ∧ exec (.encode i b l a f) t = .next t)

/-! ### BUILD -/

/-- BUILD executes in every phase; the five entries become null, kernel code, kernel data, user code, user data with
the values of 41_table_build.md section 2, and nothing else changes but the phase: no entry from 5 on, no pointer
field, no event, no byte outside the 40 of those entries. The values of entries 2 to 4 are the spec's from general
knowledge (D15, log 11). -/
def Obligations.BuildWritesCanonicalTable : Prop :=
  ∀ s : State, s.fault = false →
    ∃ t, exec .build s = .next t ∧
      t.entry 0 = some 0x0000000000000000 ∧ t.entry 1 = some 0x00CF9A000000FFFF ∧
      t.entry 2 = some 0x00CF92000000FFFF ∧ t.entry 3 = some 0x00CFFA000000FFFF ∧
      t.entry 4 = some 0x00CFF2000000FFFF ∧ (∀ j, 5 ≤ j → t.entry j = s.entry j) ∧
      t.phase = (if s.phase = .uninit then .populated else s.phase) ∧
      SamePointer s t ∧ SameFault s t ∧ t.loads = s.loads ∧ SamePort s t ∧ t.consumer.dtr = s.consumer.dtr ∧
      t.answer = some .ok ∧ SameMemoryOutside hw (entryAddr hw 0) 40 s t

/-- R92 (the spec's decision D19): BUILD moves `UNINIT` to `POPULATED`, leaves the other two phases, and touches
neither the pointer nor `loads`. -/
def Obligations.BuildAdvancesThePhase : Prop :=
  ∀ s : State, s.fault = false →
    ∃ t, exec .build s = .next t ∧ (∀ i, i < 5 → t.entry i ≠ none) ∧
      (s.phase = .uninit → t.phase = .populated) ∧ (s.phase = .populated → t.phase = .populated) ∧
      (s.phase = .installed → t.phase = .installed) ∧ SamePointer s t ∧ t.loads = s.loads

/-- R96 (the spec's decision D17): for every table length, BUILD leaves entries 5 and up exactly as they were. -/
def Obligations.BuildLeavesFurtherEntries : Prop :=
  ∀ (p : Params) (s : State), s.fault = false →
    ∃ t, buildCmd p s = .next t ∧ ∀ j, 5 ≤ j → j < p.nEntries → t.entry j = s.entry j

/-- R93 (access bytes D15, log 11): BUILD is the five ENCODEs of the Table Builder's listing, assembled and presented
in order, but for the phase (and for the count of commands presented, which is the model's own: log 3). -/
def Obligations.BuildEqualsFiveEncodes : Prop :=
  ∀ (s : State) (rest : List CommandWord), s.fault = false →
    ∃ (ws : List CommandWord) (t u : State),
      builderLines.mapM assemble = .ok ws ∧ ws.length = 5 ∧
      runSteps 5 { s with pending := ws ++ rest } = .next t ∧
      exec .build { s with pending := rest } = .next u ∧
      u = { t with phase := (if s.phase = .uninit then .populated else s.phase), presented := s.presented }

/-! ### MKPTR -/

/-- R100, with the spec's decisions D10 (`F_ORDER`), D12 (refused), D4 (five entries) and D8 (widths and bytes of the
pointer record, log 8): refused while `fault = 1`; `F_ORDER` in `UNINIT`; else `ptr_limit = trunc_16(8*N_ENTRIES -
1)`, `ptr_base = TABLE_BASE`, `ptr_valid = 1`, outcome ok, and nothing else changes: no entry, no other register, no
byte outside the six at `PTR_ADDR`. Truncating loses nothing for any legal length; five entries give 0x0027. -/
def Obligations.MkptrAssemblesPointer : Prop :=
  (∀ s : State,
    (s.fault = true → exec .mkptr s = .next { s with answer := some .refused }) ∧
    (s.fault = false → s.phase = .uninit →
      exec .mkptr s = .next { s with fault := true, faultCode := 0b10, answer := some (.fault .order) }) ∧
    (s.fault = false → s.phase ≠ .uninit →
      ∃ t, exec .mkptr s = .next t ∧
        t.ptr = some { limit := 0x0027, base := hw.tableBase } ∧ t.ptrValid = true ∧
        SameTable s t ∧ t.phase = s.phase ∧ SameFault s t ∧ t.loads = s.loads ∧ SamePort s t ∧
        t.consumer.dtr = s.consumer.dtr ∧ t.answer = some .ok ∧
        imageByte hw t hw.ptrAddr.toNat = some 0x27 ∧ imageByte hw t (hw.ptrAddr.toNat + 1) = some 0x00 ∧
        (∀ k, k < 4 → imageByte hw t (hw.ptrAddr.toNat + 2 + k) = some (byteOf hw.tableBase k)) ∧
        SameMemoryOutside hw hw.ptrAddr.toNat 6 s t)) ∧
  (∀ (p : Params) (s : State), p.Legal → s.fault = false → s.phase ≠ .uninit →
    ∃ t q, mkptrCmd p s = .next t ∧ t.ptr = some q ∧ q.limit.toNat = 8 * p.nEntries - 1 ∧ q.base = p.tableBase)

/-- R101 (the spec's decision D10): MKPTR in `UNINIT` raises `F_ORDER` and writes nothing else; it is accepted in
`POPULATED` and in `INSTALLED`, and repeating it changes nothing. -/
def Obligations.MkptrNeedsPopulatedTable : Prop :=
  ∀ s : State, s.fault = false →
    (s.phase = .uninit →
      exec .mkptr s = .next { s with fault := true, faultCode := 0b10, answer := some (.fault .order) }) ∧
    (s.phase = .populated ∨ s.phase = .installed →
      ∃ t, exec .mkptr s = .next t ∧ t.answer = some .ok ∧ exec .mkptr t = .next t)

/-! ### LOAD -/

/-- LOAD with a populated table and an assembled pointer (42_pointer_load.md section 2): it appends the event
`Load(PTR_ADDR, ptr_limit, ptr_base)`, sets `INSTALLED`, answers with the event, the loader installs the pointer in
`dtr`, and nothing else changes: no entry, no pointer field, no byte of memory. -/
def Obligations.LoadHandsOverPointer : Prop :=
  ∀ (s : State) (q : TablePointer), s.fault = false → s.phase ≠ .uninit → s.ptrValid = true → s.ptr = some q →
    ∃ t, exec .load s = .next t ∧
      t.loads = s.loads ++ [{ ptrAddr := hw.ptrAddr, limit := q.limit, base := q.base }] ∧
      t.phase = .installed ∧
      t.answer = some (.okWithLoad { ptrAddr := hw.ptrAddr, limit := q.limit, base := q.base }) ∧
      t.consumer.dtr = some q ∧
      SameTable s t ∧ SamePointer s t ∧ SameFault s t ∧ SamePort s t ∧ SameMemory hw s t

/-- LOAD in `UNINIT` or with `ptr_valid = 0` raises `F_ORDER` and writes nothing else (the spec's decision D10). -/
def Obligations.LoadOutOfOrderFaults : Prop :=
  ∀ s : State, s.fault = false → (s.phase = .uninit ∨ s.ptrValid = false) →
    exec .load s = .next { s with fault := true, faultCode := 0b10, answer := some (.fault .order) }

/-- R41, R144: the block enforces BUILD before MKPTR before LOAD: with no fault before, MKPTR faults exactly in
`UNINIT`, LOAD exactly in `UNINIT` or with `ptr_valid = 0`, and INIT, which does BUILD, MKPTR, LOAD in that order,
never. A pointer in a state with `ptr_valid = 1` is written (10_state.md section 5 item 2), which the premise says. -/
def Obligations.OrderOfPopulationPointerLoadIsEnforced : Prop :=
  ∀ s : State, s.fault = false → (s.ptrValid = true ↔ s.ptr ≠ none) →
    (∃ t, exec .mkptr s = .next t ∧ (t.fault = true ↔ s.phase = .uninit) ∧
      (t.fault = true ↔ t.answer = some (.fault .order))) ∧
    (∃ t, exec .load s = .next t ∧ (t.fault = true ↔ s.phase = .uninit ∨ s.ptrValid = false) ∧
      (t.fault = true ↔ t.answer = some (.fault .order)) ∧ (t.fault = true → t.loads = s.loads)) ∧
    (∃ t u v, exec .build s = .next t ∧ exec .mkptr t = .next u ∧ exec .load u = .next v ∧ exec .init s = .next v ∧
      v.fault = false ∧ v.answer = some (.okWithLoad (loadEventOf hw (pointerValue hw))))

/-! ### INIT -/

/-- INIT executes in every phase: canonical table, pointer, event, `INSTALLED` (42_pointer_load.md section 3). Entries
5 and up, the fault registers and every byte outside the two images' written parts are as before. Entries 2 to 4 as
for BUILD (D15, log 11). -/
def Obligations.InitInstallsCanonicalTable : Prop :=
  ∀ s : State, s.fault = false →
    ∃ t, exec .init s = .next t ∧
      t.entry 0 = some 0x0000000000000000 ∧ t.entry 1 = some 0x00CF9A000000FFFF ∧
      t.entry 2 = some 0x00CF92000000FFFF ∧ t.entry 3 = some 0x00CFFA000000FFFF ∧
      t.entry 4 = some 0x00CFF2000000FFFF ∧ (∀ j, 5 ≤ j → t.entry j = s.entry j) ∧
      t.ptr = some { limit := 0x0027, base := hw.tableBase } ∧ t.ptrValid = true ∧ t.phase = .installed ∧
      t.loads = s.loads ++ [{ ptrAddr := hw.ptrAddr, limit := 0x0027, base := hw.tableBase }] ∧
      t.answer = some (.okWithLoad { ptrAddr := hw.ptrAddr, limit := 0x0027, base := hw.tableBase }) ∧
      t.consumer.dtr = some { limit := 0x0027, base := hw.tableBase } ∧ SameFault s t ∧ SamePort s t ∧
      (∀ a, ¬(entryAddr hw 0 ≤ a ∧ a < entryAddr hw 0 + 40) →
        ¬(hw.ptrAddr.toNat ≤ a ∧ a < hw.ptrAddr.toNat + 6) → imageByte hw t a = imageByte hw s a)

/-- R106 (the spec's decision D18): INIT is one step whose result equals that of BUILD, MKPTR, LOAD in that order, in
every component of the state (the count of commands presented is not touched by exec). -/
def Obligations.InitEqualsBuildMkptrLoad : Prop :=
  ∀ s : State,
    (s.fault = true → exec .init s = .next { s with answer := some .refused }) ∧
    (s.fault = false → ∃ t u v, exec .build s = .next t ∧ exec .mkptr t = .next u ∧ exec .load u = .next v ∧
      exec .init s = .next v ∧
      v.answer = some (.okWithLoad (loadEventOf hw (pointerValue hw))))

/-- A second INIT (42_pointer_load.md section 3, 41_table_build.md section 2 on idempotence) gives byte-identical
images and the same pointer, appends an equal event and leaves `INSTALLED`; an ENCODE between the two is undone. -/
def Obligations.InitIsIdempotentOnBytes : Prop :=
  ∀ (s : State) (index : BitVec 8) (base limit : BitVec 32) (access flags : BitVec 8),
    s.fault = false → index.toNat < hw.nEntries →
    ∃ t u v e, exec .init s = .next t ∧ exec (.encode index base limit access flags) t = .next u ∧
      exec .init u = .next v ∧ SameMemory hw t v ∧ SamePointer t v ∧ v.phase = .installed ∧
      t.loads = s.loads ++ [e] ∧ v.loads = s.loads ++ [e, e]

/-! ### Steps, faults, refusals -/

/-- A step runs the decoded command: the word leaves the host's list, is counted, and exec of its command is the step;
the second clause says it of the word numbered as the opcode table numbers it. That one transaction presents one
command is 10_state.md section 6; that a step takes the head of the host's list `pending`, and that `withFetchWord`
puts a word there, is the MODEL'S CHOICE (DESIGN CHOICE, log 2), and so is the count `presented` (DESIGN CHOICE, log
3). -/
def Obligations.StepRunsPresentedCommand : Prop :=
  (∀ (s : State) (cw : CommandWord) (rest : List CommandWord) (i : Instr),
    s.pending = cw :: rest → decode cw = .ok i → i.WellFormed →
      step s = exec i { s with pending := rest, presented := s.presented + 1 }) ∧
  (∀ (s : State) (nbits w : Nat) (i : Instr), decodeTableWord nbits w = some i →
    step (s.withFetchWord nbits w) = exec i { s with presented := s.presented + 1 })

/-- With no command presented a step waits and changes nothing (70_reset_and_hazards.md section 1; the model's choice,
log 2). -/
def Obligations.NoCommandPresentedWaits : Prop :=
  ∀ s : State, s.pending = [] → step s = .next s

/-- R55 (the spec's decision D11): presenting a word with any opcode other than 0x01 to 0x05 raises `F_ILLEGAL` and
changes no other state. -/
def Obligations.IllegalOpcodeFaults : Prop :=
  ∀ (s : State) (cw : CommandWord) (rest : List CommandWord), s.pending = cw :: rest → s.fault = false →
    ((fieldOp cw).toNat = 0 ∨ 6 ≤ (fieldOp cw).toNat) →
      step s = .next
        { s with
          pending := rest, presented := s.presented + 1, fault := true, faultCode := 0b11
          answer := some (.fault .illegal) }

/-- While `fault = 1` every command, an illegal one too, is refused: nothing changes but the outcome (60_exceptions.md
section 4, the spec's decision D12). -/
def Obligations.EveryCommandRefusedWhileFaulted : Prop :=
  (∀ (s : State) (i : Instr), s.fault = true → exec i s = .next { s with answer := some .refused }) ∧
  (∀ (s : State) (cw : CommandWord) (rest : List CommandWord), s.fault = true → s.pending = cw :: rest →
    step s = .next { s with pending := rest, presented := s.presented + 1, answer := some .refused })

/-- R124 (the spec's decision D12): a command that raises a fault writes `fault` and `fault_code` (never `0b00`) and
nothing else: table, pointer, phase, events, the consumer's data and every byte of both images are as they were. -/
def Obligations.FaultEntryIsPrecise : Prop :=
  ∀ (s t : State) (i : Instr), s.fault = false → exec i s = .next t → t.fault = true →
    (∃ c : FaultCause, t = { s with fault := true, faultCode := c.code, answer := some (.fault c) }) ∧
    t.faultCode ≠ 0b00 ∧ SameMemory hw s t

/-- R125, R126 (the spec's decision D12): from a state with `fault = 1` no number of steps changes the table, a
register, an event, the consumer's data or a byte of memory, whatever the host presents: only reset leaves it. -/
def Obligations.FaultIsNeverLeftByCommands : Prop :=
  ∀ (s : State) (k : Nat), s.fault = true →
    ∃ t, runSteps k s = .next t ∧ SameTable s t ∧ SamePointer s t ∧ t.phase = s.phase ∧
      SameFault s t ∧ t.loads = s.loads ∧ t.consumer = s.consumer ∧ SameMemory hw s t

/-! ### Reset -/

/-- R20 (the spec's decision D13): the state after reset. -/
def Obligations.ResetValues : Prop :=
  (∀ i, State.reset.entry i = none) ∧ State.reset.ptr = none ∧ State.reset.ptrValid = false ∧
  State.reset.phase = .uninit ∧ State.reset.phase.code = 0b00 ∧ State.reset.fault = false ∧
  State.reset.faultCode = 0b00 ∧ State.reset.loads = []

/-- A reset in any state gives the block the values after reset (the spec's decision D13; log 14) and leaves the
pointer the loader installed in the consumer (70_reset_and_hazards.md section 1; log 15); every byte of both images
then has no value, so every read of them faults (the spec's decision D23). That a read faults at addresses outside
both images too, past the last address, and at widths above 8 is the MODEL'S CHOICE (DESIGN CHOICE, log 9, log 19). -/
def Obligations.BlockResetLeavesConsumer : Prop :=
  ∀ s : State,
    SameTable State.reset s.applyReset ∧ SamePointer State.reset s.applyReset ∧
    s.applyReset.phase = .uninit ∧ SameFault State.reset s.applyReset ∧ s.applyReset.loads = [] ∧
    s.applyReset.consumer.dtr = s.consumer.dtr ∧
    (∀ p a, imageByte p s.applyReset a = none) ∧
    (∀ p a n, 1 ≤ n → ∃ e, memRead p s.applyReset a n = .error e)

/-! ### Invariants and whole-machine rules -/

/-- The invariant holds right after reset. -/
def Obligations.ResetMeetsInvariant : Prop := Inv hw State.reset

/-- Every step from a state that meets the invariant gives a state that meets it (10_state.md section 5 items 2 to 6,
with the canonical form of the stored lists). -/
def Obligations.StepKeepsInvariant : Prop :=
  ∀ s t : State, Inv hw s → step s = .next t → Inv hw t

/-- A block reset keeps the invariant. -/
def Obligations.BlockResetKeepsInvariant : Prop := ∀ s : State, Inv hw s → Inv hw s.applyReset

/-- From a state that meets the invariant every step gives a next state: no command is stopped by the model. -/
def Obligations.NoCommandIsStopped : Prop := ∀ s : State, Inv hw s → ∃ t, step s = .next t

/-- No step moves `phase` backwards, clears `ptr_valid` or `fault`, takes a value from a written entry, or changes an
event already given; at most one event is added (10_state.md section 3). -/
def Obligations.LifecycleIsMonotone : Prop :=
  ∀ s t : State, step s = .next t →
    s.phase.code.toNat ≤ t.phase.code.toNat ∧ (s.ptrValid = true → t.ptrValid = true) ∧
    (s.fault = true → t.fault = true ∧ t.faultCode = s.faultCode) ∧
    (∀ i, s.entry i ≠ none → t.entry i ≠ none) ∧ (s.ptr ≠ none → t.ptr ≠ none) ∧
    (∃ es, t.loads = s.loads ++ es ∧ es.length ≤ 1)

/-- Only LOAD and INIT emit an event or change the consumer's descriptor-table register, and the register then holds
what the event says (10_state.md section 3, 42_pointer_load.md section 2). -/
def Obligations.OnlyLoadEventsReachConsumer : Prop :=
  ∀ (s t : State) (i : Instr), exec i s = .next t →
    (t.loads ≠ s.loads ∨ t.consumer.dtr ≠ s.consumer.dtr → i = .load ∨ i = .init) ∧
    (t.loads ≠ s.loads → ∃ e q, t.loads = s.loads ++ [e] ∧ t.consumer.dtr = some q ∧ e = loadEventOf hw q ∧
      t.answer = some (.okWithLoad e))

/-- The table is read by no command: whatever it holds, and whatever the consumer may still see, a command has the
same outcome and leaves the same registers and events (10_state.md section 2). -/
def Obligations.CommandsNeverReadTheTable : Prop :=
  ∀ (s t : State) (i : Instr) (m : List (Nat × Descriptor)) (c : Consumer), exec i s = .next t →
    ∃ t', exec i { s with table := m, consumer := c } = .next t' ∧
      t'.answer = t.answer ∧ SamePointer t t' ∧ t'.phase = t.phase ∧ SameFault t t' ∧ t'.loads = t.loads

/-- The sequences of command words that raise no fault from reset are exactly those of 95_test_vectors.md part 4 item
6: legal opcodes, in-bounds ENCODEs, MKPTR after a BUILD or INIT, LOAD after a MKPTR or INIT. -/
def Obligations.FaultFreeSequencesCharacterised : Prop :=
  ∀ ws : List CommandWord,
    ∃ t, runSteps ws.length { State.reset with pending := ws } = .next t ∧ t.pending = [] ∧
      (t.fault = false ↔ faultFree hw false false ws = true)

/-- What a good run has reached (70_reset_and_hazards.md section 2): entries 0 to 4 and the pointer written, the
pointer correct, at least one event and every event correct. -/
def Obligations.GoodRunEndsLoaded : Prop :=
  ∀ (ws : List CommandWord) (k : Nat) (t : State),
    runSteps k { State.reset with pending := ws } = .next t → GoodEnd t →
      FullyWritten hw t ∧ t.ptrValid = true ∧
      t.ptr = some { limit := 0x0027, base := hw.tableBase } ∧ t.loads ≠ [] ∧
      (∀ e ∈ t.loads, e = { ptrAddr := hw.ptrAddr, limit := 0x0027, base := hw.tableBase })

/-- INIT from reset ends a good run that also meets the host's duties of 70_reset_and_hazards.md section 3: exactly one
event, entry 0 null, every entry the pointer covers written. -/
def Obligations.InitFromResetMeetsDuties : Prop :=
  ∃ t, exec .init State.reset = .next t ∧ GoodEnd t ∧ LoadedOnce t ∧ NullKept t ∧ FullyWritten hw t

/-! ### The two memory images -/

/-- R32 (bit order inside an entry D6, log 7): for every legal instantiation, the byte at `TABLE_BASE + 8*i + k` is
`T[i][8k+7:8k]`, and has no value where `T[i]` is unwritten; entries are contiguous and the image spans exactly
`8*N_ENTRIES` bytes: outside it and outside the pointer image the block drives nothing. -/
def Obligations.TableImageBytes : Prop :=
  ∀ (p : Params) (s : State), p.Legal →
    (∀ i k, i < p.nEntries → k < 8 →
      imageByte p s (p.tableBase.toNat + 8 * i + k) = (s.entry i).map fun d => d.extractLsb' (8 * k) 8) ∧
    (∀ i k, i < p.nEntries → k < 8 → s.entry i = none → imageByte p s (p.tableBase.toNat + 8 * i + k) = none) ∧
    (∀ a, ¬(p.tableBase.toNat ≤ a ∧ a < p.tableBase.toNat + 8 * p.nEntries) →
      ¬(p.ptrAddr.toNat ≤ a ∧ a < p.ptrAddr.toNat + 6) → locate p a = none ∧ imageByte p s a = none)

/-- The six bytes at `PTR_ADDR` are `ptr_limit` then `ptr_base`, each little-endian, with no padding, and have no
value while the pointer is unwritten (20_memory.md section 3; the layout is the spec's from general knowledge: D8, log
8). -/
def Obligations.PointerImageBytes : Prop :=
  ∀ (p : Params) (s : State) (q : TablePointer), p.Legal →
    (s.ptr = some q →
      imageByte p s p.ptrAddr.toNat = some (q.limit.extractLsb' 0 8) ∧
      imageByte p s (p.ptrAddr.toNat + 1) = some (q.limit.extractLsb' 8 8) ∧
      imageByte p s (p.ptrAddr.toNat + 2) = some (q.base.extractLsb' 0 8) ∧
      imageByte p s (p.ptrAddr.toNat + 3) = some (q.base.extractLsb' 8 8) ∧
      imageByte p s (p.ptrAddr.toNat + 4) = some (q.base.extractLsb' 16 8) ∧
      imageByte p s (p.ptrAddr.toNat + 5) = some (q.base.extractLsb' 24 8)) ∧
    (s.ptr = none → ∀ k, k < 6 → imageByte p s (p.ptrAddr.toNat + k) = none)

/-- The canonical list of the memory says what the read of one byte says, at every address (20_memory.md section 1).
-/
def Obligations.MemoryListReadsAsImages : Prop :=
  ∀ (p : Params) (s : State), p.Legal → ∀ a, Sparse.get (s.memory p) a = imageByte p s a

/-- A read of 1 to 8 bytes, at any alignment, over bytes that have values returns those bytes, the byte at the lowest
address least significant (20_memory.md sections 2 and 3; little-endian is the spec's from general knowledge: D6, log
7). -/
def Obligations.ReadsReturnTheBytes : Prop :=
  ∀ (p : Params) (s : State) (a : Addr) (n : Nat) (g : Nat → Byte), 1 ≤ n → n ≤ 8 →
    (∀ k, k < n → imageByte p s (a.toNat + k) = some (g k)) →
      ∃ v, memRead p s a n = .ok v ∧ (∀ k, k < n → v.extractLsb' (8 * k) 8 = g k) ∧ v.toNat < 2 ^ (8 * n)

/-- Reads of a written entry at the widths 20_memory.md section 2 names: 16 bits at offset 0 give `limit_low`, 32 bits
at offset 0 `{base_low, limit_low}`, 32 bits at offset 4 `{base_high, granularity, access, base_mid}`, 64 bits the
descriptor (little-endian: D6, log 7). -/
def Obligations.MixedWidthReadsOfEntry : Prop :=
  ∀ (p : Params) (s : State) (i : Nat) (d : Descriptor) (a : Addr), p.Legal → i < p.nEntries → s.entry i = some d →
    a.toNat = entryAddr p i →
      memRead p s a 2 = .ok ((descLimitLow d).setWidth 64) ∧
      memRead p s a 4 = .ok ((descBaseLow d ++ descLimitLow d).setWidth 64) ∧
      memRead p s (a + 4) 4 =
        .ok ((descBaseHigh d ++ descGranularity d ++ descAccess d ++ descBaseMid d).setWidth 64) ∧
      memRead p s a 8 = .ok d

/-- R35 (the spec's decision D23; the MODEL'S CHOICES log 9, log 10, log 19): a read that covers a byte with no value
returns nothing: it faults, for every width and alignment; a byte outside the images, past the last address too, has
no value. -/
def Obligations.ReadOfUnwrittenByteFaults : Prop :=
  ∀ (p : Params) (s : State) (a : Addr) (n k : Nat), 1 ≤ n → n ≤ 8 → k < n → imageByte p s (a.toNat + k) = none →
    (∃ e, memRead p s a n = .error e) ∧ (∃ e, consumerRead p s a n = .error e)

/-- What the loader finds at the event's address is what the event carries (42_pointer_load.md section 2): after LOAD
or INIT, two bytes at `a` read as `l` and four bytes at `a + 2` as `b` (layout: D8, log 8). -/
def Obligations.LoaderFindsEventInMemory : Prop :=
  ∀ (s t : State) (i : Instr) (e : LoadEvent), exec i s = .next t → t.answer = some (.okWithLoad e) →
    memRead hw t e.ptrAddr 2 = .ok (e.limit.setWidth 64) ∧
    memRead hw t (e.ptrAddr + 2) 4 = .ok (e.base.setWidth 64)

/-! ### The consumer's view -/

/-- Right after a load event the consumer's view equals the images: every read gives what the images give
(20_memory.md section 5). -/
def Obligations.LoadEventSynchronisesConsumer : Prop :=
  ∀ (s t : State) (i : Instr) (e : LoadEvent), exec i s = .next t → t.answer = some (.okWithLoad e) →
    ∀ (a : Addr) (n : Nat), consumerRead hw t a n = memRead hw t a n

/-- A write after a load event is left open both ways (20_memory.md section 5, 93_implementation_defined.md U10): both
the old and the new value of each byte are among what the consumer may see, so neither may be assumed. -/
def Obligations.WriteAfterLoadIsLeftOpen : Prop :=
  ∀ (s : State) (index : BitVec 8) (base limit : BitVec 32) (access flags : BitVec 8),
    s.fault = false → index.toNat < hw.nEntries → s.consumer.dtr ≠ none →
    ∃ t, exec (.encode index base limit access flags) s = .next t ∧
      ∀ k, k < 8 →
        imageByte hw s (entryAddr hw index.toNat + k) ∈ byteViews hw t (entryAddr hw index.toNat + k) ∧
        imageByte hw t (entryAddr hw index.toNat + k) ∈ byteViews hw t (entryAddr hw index.toNat + k)

/-- A command that is no load event takes no value from what the consumer may see of a byte; and one that changes no
byte of the images adds none: a byte-identical rewrite is harmless (70_reset_and_hazards.md section 3). -/
def Obligations.ConsumerViewOnlyGrowsBetweenLoads : Prop :=
  ∀ (s t : State) (i : Instr), exec i s = .next t → t.loads = s.loads →
    (∀ a v, v ∈ byteViews hw s a → s.consumer.dtr ≠ none → v ∈ byteViews hw t a) ∧
    (SameTable s t → t.ptr = s.ptr → ∀ a v, v ∈ byteViews hw t a ↔ v ∈ byteViews hw s a)

/-- After a load event, on a table of five entries, no read inside the images can meet a byte with no value: whatever
the host did since, and whichever values the consumer sees, the read returns (20_memory.md section 3). Which values it
may see is the MODEL'S reading of an open point (DESIGN CHOICE, log 12). -/
def Obligations.NoConsumerReadFaultsAfterLoad : Prop :=
  ∀ (s : State) (a : Addr) (n : Nat), Inv hw s → s.loads ≠ [] → 1 ≤ n → n ≤ 8 →
    (∀ k, k < n → locate hw (a.toNat + k) ≠ none) → ∃ v, consumerRead hw s a n = .ok v

/-! ### Constants and the assembler -/

/-- The access bytes and the flags of the canonical set are what the worded attributes give under the bit assignment
of 20_memory.md section 6 (from general knowledge: D15, log 11); user entries differ from kernel entries in the ring
alone. -/
def Obligations.CanonicalBytesFromAttributes : Prop :=
  accessByte ⟨true, 0, true, true, false, true, false⟩ = accKcode ∧
  accessByte ⟨true, 0, true, false, false, true, false⟩ = accKdata ∧
  accessByte ⟨true, 3, true, true, false, true, false⟩ = accUcode ∧
  accessByte ⟨true, 3, true, false, false, true, false⟩ = accUdata ∧
  flagsByte ⟨true, true, false, false⟩ = flagsFlat ∧
  accessAttrs accUcode = { accessAttrs accKcode with ring := 3 } ∧
  accessAttrs accUdata = { accessAttrs accKdata with ring := 3 } ∧
  limitUnit (flatDescriptor accKcode) = 4096

/-- Every source line is refused exactly when an operand does not fit its field; the word of a line that is not
refused decodes to the line's command with the operands as written, and a pseudo-command to its ENCODE (30_encoding.md
section 7, the spec's decision D24). -/
def Obligations.AssembledLinesDecode : Prop :=
  (∀ l : AsmLine, ¬ l.WellFormed → assemble l = .error .operandTooWide) ∧
  (∀ l : AsmLine, l.WellFormed → ∃ cw i, assemble l = .ok cw ∧ decode cw = .ok i ∧
    match l with
    | .encode index base limit access flags =>
        ∃ x b m a f, i = .encode x b m a f ∧ x.toNat = index ∧ b.toNat = base ∧ m.toNat = limit ∧ a.toNat = access ∧
          f.toNat = flags
    | .build => i = .build
    | .mkptr => i = .mkptr
    | .load => i = .load
    | .init => i = .init
    | .nulld index => ∃ x, i = .encode x 0 0 0 0 ∧ x.toNat = index
    | .flat index access => ∃ x a, i = .encode x 0 0xFFFFF a 0xC0 ∧ x.toNat = index ∧ a.toNat = access)
end

