-- ==== Sys2Proof/Laws/Bits.lean ====
section
/-! SUPPORT. Slices of concatenations (R9), and with them the fields of an encoded command word and of a packed
descriptor. -/

namespace Sys2Proof

/-- A slice that lies in the more significant part. -/
theorem slice_append_high {v w : Nat} (x : BitVec v) (y : BitVec w) {s : Nat} (n : Nat) (h : w ≤ s) :
    (x ++ y).extractLsb' s n = x.extractLsb' (s - w) n := by
  refine BitVec.eq_of_getLsbD_eq fun k hk => ?_
  simp only [BitVec.getLsbD_extractLsb', BitVec.getLsbD_append, hk, decide_true, Bool.true_and]
  rw [if_neg (by omega), show s + k - w = s - w + k by omega]

/-- A slice that lies in the less significant part. -/
theorem slice_append_low {v w : Nat} (x : BitVec v) (y : BitVec w) {s n : Nat} (h : s + n ≤ w) :
    (x ++ y).extractLsb' s n = y.extractLsb' s n := by
  refine BitVec.eq_of_getLsbD_eq fun k hk => ?_
  simp only [BitVec.getLsbD_extractLsb', BitVec.getLsbD_append, hk, decide_true, Bool.true_and]
  rw [if_pos (by omega)]

/-- The slice of all bits. -/
theorem slice_self {n : Nat} (x : BitVec n) : x.extractLsb' 0 n = x := by
  refine BitVec.eq_of_getLsbD_eq fun k hk => ?_
  simp [hk]

/-- A slice of a slice. -/
theorem slice_slice {w : Nat} (x : BitVec w) {a b m n : Nat} (h : b + n ≤ m) :
    (x.extractLsb' a m).extractLsb' b n = x.extractLsb' (a + b) n := by
  refine BitVec.eq_of_getLsbD_eq fun k hk => ?_
  simp only [BitVec.getLsbD_extractLsb', hk, decide_true, Bool.true_and]
  rw [decide_eq_true (by omega : b + k < m), Bool.true_and, Nat.add_assoc]

/-- Two adjacent slices make one. -/
theorem slice_concat {w : Nat} (x : BitVec w) (a m n : Nat) :
    x.extractLsb' (a + n) m ++ x.extractLsb' a n = x.extractLsb' a (m + n) := by
  refine BitVec.eq_of_getLsbD_eq fun k hk => ?_
  simp only [BitVec.getLsbD_append, BitVec.getLsbD_extractLsb', hk, decide_true, Bool.true_and]
  by_cases hn : k < n
  · rw [if_pos hn, decide_eq_true hn, Bool.true_and]
  · rw [if_neg hn, decide_eq_true (by omega : k - n < m), Bool.true_and, show a + n + (k - n) = a + k by omega]

/-! The fields of an ENCODE word (R50, R58). -/

section
variable (index : BitVec 8) (base limit : BitVec 32) (access flags : BitVec 8)

/-- The six fields of a word given as one concatenation. -/
theorem fields_of_concat (op : BitVec 8) :
    (op ++ index ++ base ++ limit ++ access ++ flags).extractLsb' 88 8 = op ∧
    (op ++ index ++ base ++ limit ++ access ++ flags).extractLsb' 80 8 = index ∧
    (op ++ index ++ base ++ limit ++ access ++ flags).extractLsb' 48 32 = base ∧
    (op ++ index ++ base ++ limit ++ access ++ flags).extractLsb' 16 32 = limit ∧
    (op ++ index ++ base ++ limit ++ access ++ flags).extractLsb' 8 8 = access ∧
    (op ++ index ++ base ++ limit ++ access ++ flags).extractLsb' 0 8 = flags := by
  refine ⟨?_, ?_, ?_, ?_, ?_, ?_⟩
  · rw [slice_append_high _ _ _ (by decide), slice_append_high _ _ _ (by decide), slice_append_high _ _ _ (by decide),
      slice_append_high _ _ _ (by decide), slice_append_high _ _ _ (by decide)]
    exact slice_self op
  · rw [slice_append_high _ _ _ (by decide), slice_append_high _ _ _ (by decide), slice_append_high _ _ _ (by decide),
      slice_append_high _ _ _ (by decide), slice_append_low _ _ (by decide)]
    exact slice_self index
  · rw [slice_append_high _ _ _ (by decide), slice_append_high _ _ _ (by decide), slice_append_high _ _ _ (by decide),
      slice_append_low _ _ (by decide)]
    exact slice_self base
  · rw [slice_append_high _ _ _ (by decide), slice_append_high _ _ _ (by decide), slice_append_low _ _ (by decide)]
    exact slice_self limit
  · rw [slice_append_high _ _ _ (by decide), slice_append_low _ _ (by decide)]
    exact slice_self access
  · rw [slice_append_low _ _ (by decide)]
    exact slice_self flags

end

/-- The opcode field of an operand-less word. -/
theorem fieldOp_of_op (op : BitVec 8) (low : BitVec 88) : fieldOp (op ++ low : BitVec (8 + 88)) = op := by
  unfold fieldOp
  exact (slice_append_high op low 8 (by decide)).trans (slice_self op)

/-! The opcode decides the command (R52, R58). -/

theorem decode_encode_op {cw : CommandWord} (h : fieldOp cw = 0x01) :
    decode cw = .ok (.encode (fieldIndex cw) (fieldBase cw) (fieldLimit cw) (fieldAccess cw) (fieldFlags cw)) := by
  simp [decode, h]
theorem decode_build_op {cw : CommandWord} (h : fieldOp cw = 0x02) : decode cw = .ok .build := by simp [decode, h]
theorem decode_mkptr_op {cw : CommandWord} (h : fieldOp cw = 0x03) : decode cw = .ok .mkptr := by simp [decode, h]
theorem decode_load_op {cw : CommandWord} (h : fieldOp cw = 0x04) : decode cw = .ok .load := by simp [decode, h]
theorem decode_init_op {cw : CommandWord} (h : fieldOp cw = 0x05) : decode cw = .ok .init := by simp [decode, h]

/-- R55: any other opcode is rejected by name. -/
theorem decode_illegal_op {cw : CommandWord} (h1 : fieldOp cw ≠ 0x01) (h2 : fieldOp cw ≠ 0x02) (h3 : fieldOp cw ≠ 0x03)
    (h4 : fieldOp cw ≠ 0x04) (h5 : fieldOp cw ≠ 0x05) : decode cw = .error (.illegalOp (fieldOp cw)) := by
  rw [decode, if_neg h1, if_neg h2, if_neg h3, if_neg h4, if_neg h5]

/-- What a word can decode to, with its opcode (R58). -/
theorem decode_cases (cw : CommandWord) :
    (fieldOp cw = 0x01 ∧
      decode cw = .ok (.encode (fieldIndex cw) (fieldBase cw) (fieldLimit cw) (fieldAccess cw) (fieldFlags cw))) ∨
    (fieldOp cw = 0x02 ∧ decode cw = .ok .build) ∨ (fieldOp cw = 0x03 ∧ decode cw = .ok .mkptr) ∨
    (fieldOp cw = 0x04 ∧ decode cw = .ok .load) ∨ (fieldOp cw = 0x05 ∧ decode cw = .ok .init) ∨
    decode cw = .error (.illegalOp (fieldOp cw)) := by
  by_cases h1 : fieldOp cw = 0x01
  · exact .inl ⟨h1, decode_encode_op h1⟩
  by_cases h2 : fieldOp cw = 0x02
  · exact .inr (.inl ⟨h2, decode_build_op h2⟩)
  by_cases h3 : fieldOp cw = 0x03
  · exact .inr (.inr (.inl ⟨h3, decode_mkptr_op h3⟩))
  by_cases h4 : fieldOp cw = 0x04
  · exact .inr (.inr (.inr (.inl ⟨h4, decode_load_op h4⟩)))
  by_cases h5 : fieldOp cw = 0x05
  · exact .inr (.inr (.inr (.inr (.inl ⟨h5, decode_init_op h5⟩))))
  exact .inr (.inr (.inr (.inr (.inr (decode_illegal_op h1 h2 h3 h4 h5)))))

/-! The fields of a packed descriptor (R77, R79 law 4). -/

section
open Machine
variable {lw aw fw : Nat} (base : BitVec 32) (limit : BitVec lw) (access : BitVec aw) (flags : BitVec fw)

theorem descLimitLow_pack : descLimitLow (pack base limit access flags) = packLimitLow limit := by
  unfold descLimitLow pack
  rw [slice_append_low _ _ (by decide)]
  exact slice_self _

theorem descBaseLow_pack : descBaseLow (pack base limit access flags) = packBaseLow base := by
  unfold descBaseLow pack
  rw [slice_append_high _ _ _ (by decide), slice_append_low _ _ (by decide)]
  exact slice_self _

theorem descBaseMid_pack : descBaseMid (pack base limit access flags) = packBaseMid base := by
  unfold descBaseMid pack
  rw [slice_append_high _ _ _ (by decide), slice_append_high _ _ _ (by decide), slice_append_low _ _ (by decide)]
  exact slice_self _

theorem descAccess_pack : descAccess (pack base limit access flags) = packAccess access := by
  unfold descAccess pack
  rw [slice_append_high _ _ _ (by decide), slice_append_high _ _ _ (by decide), slice_append_high _ _ _ (by decide),
    slice_append_low _ _ (by decide)]
  exact slice_self _

theorem descGranularity_pack : descGranularity (pack base limit access flags) = packGranularity limit flags := by
  unfold descGranularity pack
  rw [slice_append_high _ _ _ (by decide), slice_append_high _ _ _ (by decide), slice_append_high _ _ _ (by decide),
    slice_append_high _ _ _ (by decide), slice_append_low _ _ (by decide)]
  exact slice_self _

theorem descBaseHigh_pack : descBaseHigh (pack base limit access flags) = packBaseHigh base := by
  unfold descBaseHigh pack
  rw [slice_append_high _ _ _ (by decide), slice_append_high _ _ _ (by decide), slice_append_high _ _ _ (by decide),
    slice_append_high _ _ _ (by decide), slice_append_high _ _ _ (by decide)]
  exact slice_self _

theorem descLimitNibble_eq (d : Descriptor) : descLimitNibble d = (descGranularity d).extractLsb' 0 4 := by
  unfold descLimitNibble descGranularity
  rw [slice_slice _ (by decide)]

theorem descFlagsNibble_eq (d : Descriptor) : descFlagsNibble d = (descGranularity d).extractLsb' 4 4 := by
  unfold descFlagsNibble descGranularity
  rw [slice_slice _ (by decide)]

/-- R77, read backwards: a descriptor is its six fields. -/
theorem descriptor_eq_fields (d : Descriptor) :
    descBaseHigh d ++ descGranularity d ++ descAccess d ++ descBaseMid d ++ descBaseLow d ++ descLimitLow d = d := by
  unfold descBaseHigh descGranularity descAccess descBaseMid descBaseLow descLimitLow
  rw [slice_concat d 48 8 8, slice_concat d 40 16 8, slice_concat d 32 24 8, slice_concat d 16 32 16,
    slice_concat d 0 48 16]
  exact slice_self d

end

end Sys2Proof
end

