-- ==== Sys2Proof/Laws/Sparse.lean ====
section
/-! SUPPORT. The laws of sparse storage: read after write, canonical form kept, overwriting, commuting writes. -/

namespace Sys2Proof.Machine

variable {α : Type}

@[simp] theorem Sparse.get_nil (k : Nat) : Sparse.get ([] : List (Nat × α)) k = none := rfl

theorem Sparse.get_cons (j : Nat) (v : α) (m : List (Nat × α)) (k : Nat) :
    Sparse.get ((j, v) :: m) k = if j = k then some v else Sparse.get m k := rfl

/-- Read after write, at the key written and at every other key. -/
theorem Sparse.get_set (m : List (Nat × α)) (k : Nat) (v : α) (j : Nat) :
    Sparse.get (Sparse.set m k v) j = if k = j then some v else Sparse.get m j := by
  induction m with
  | nil => simp [Sparse.set, Sparse.get_cons]
  | cons e m ih =>
    obtain ⟨i, w⟩ := e
    simp only [Sparse.set]
    split
    · simp only [Sparse.get_cons]
    · split
      · next h => subst h; simp only [Sparse.get_cons]; split <;> rfl
      · next h =>
        simp only [Sparse.get_cons, ih]
        by_cases hij : i = j
        · simp [hij, show k ≠ j by omega]
        · simp [hij]

@[simp] theorem Sparse.get_set_self (m : List (Nat × α)) (k : Nat) (v : α) :
    Sparse.get (Sparse.set m k v) k = some v := by simp [Sparse.get_set]

theorem Sparse.get_set_ne (m : List (Nat × α)) {k j : Nat} (v : α) (h : k ≠ j) :
    Sparse.get (Sparse.set m k v) j = Sparse.get m j := by simp [Sparse.get_set, h]

/-- A key that is read is listed. -/
theorem Sparse.mem_of_get {m : List (Nat × α)} {k : Nat} {v : α} (h : Sparse.get m k = some v) : (k, v) ∈ m := by
  induction m with
  | nil => simp at h
  | cons e m ih =>
    obtain ⟨i, w⟩ := e
    rw [Sparse.get_cons] at h
    split at h
    · next hi => simp_all
    · exact List.mem_cons_of_mem _ (ih h)

/-- What a write lists: the new pair, and pairs listed before. -/
theorem Sparse.mem_set {m : List (Nat × α)} {k : Nat} {v : α} {e : Nat × α} (h : e ∈ Sparse.set m k v) :
    e = (k, v) ∨ e ∈ m := by
  induction m with
  | nil => simpa [Sparse.set] using h
  | cons x m ih =>
    obtain ⟨i, w⟩ := x
    simp only [Sparse.set] at h
    split at h
    · simpa using h
    · split at h
      · rcases List.mem_cons.mp h with h | h
        · exact .inl h
        · exact .inr (List.mem_cons_of_mem _ h)
      · rcases List.mem_cons.mp h with h | h
        · exact .inr (h ▸ List.mem_cons_self)
        · rcases ih h with h | h
          · exact .inl h
          · exact .inr (List.mem_cons_of_mem _ h)

theorem Sparse.wf_nil : Sparse.WF ([] : List (Nat × α)) := List.Pairwise.nil

theorem Sparse.wf_cons {j : Nat} {w : α} {m : List (Nat × α)} :
    Sparse.WF ((j, w) :: m) ↔ (∀ e ∈ m, j < e.1) ∧ Sparse.WF m := by
  simp [Sparse.WF, List.pairwise_cons]

/-- A write keeps the canonical form. -/
theorem Sparse.wf_set {m : List (Nat × α)} (h : Sparse.WF m) (k : Nat) (v : α) : Sparse.WF (Sparse.set m k v) := by
  induction m with
  | nil => simp [Sparse.set, Sparse.WF]
  | cons e m ih =>
    obtain ⟨j, w⟩ := e
    obtain ⟨hj, hm⟩ := Sparse.wf_cons.mp h
    simp only [Sparse.set]
    split
    · next hk =>
      refine Sparse.wf_cons.mpr ⟨fun e he => ?_, h⟩
      rcases List.mem_cons.mp he with he | he
      · simpa [he] using hk
      · exact hk.trans (hj e he)
    · split
      · next hk => exact Sparse.wf_cons.mpr ⟨hk ▸ hj, hm⟩
      · next hlt hne =>
        refine Sparse.wf_cons.mpr ⟨fun e he => ?_, ih hm⟩
        rcases Sparse.mem_set he with he | he
        · subst he; show j < k; omega
        · exact hj e he

/-- In canonical form a key below all listed ones is not listed. -/
theorem Sparse.get_eq_none_of_lt {m : List (Nat × α)} {k : Nat} (h : ∀ e ∈ m, k < e.1) : Sparse.get m k = none := by
  induction m with
  | nil => rfl
  | cons e m ih =>
    obtain ⟨j, w⟩ := e
    have hj : k < j := h (j, w) List.mem_cons_self
    rw [Sparse.get_cons, if_neg (by omega)]
    exact ih fun e he => h e (List.mem_cons_of_mem _ he)

/-- Two canonical stores that read the same are the same data. -/
theorem Sparse.ext {m n : List (Nat × α)} (hm : Sparse.WF m) (hn : Sparse.WF n)
    (h : ∀ k, Sparse.get m k = Sparse.get n k) : m = n := by
  induction m generalizing n with
  | nil =>
    cases n with
    | nil => rfl
    | cons e n => obtain ⟨j, w⟩ := e; simpa [Sparse.get_cons] using h j
  | cons e m ih =>
    obtain ⟨i, v⟩ := e
    cases n with
    | nil => simpa [Sparse.get_cons] using h i
    | cons e n =>
      obtain ⟨j, w⟩ := e
      obtain ⟨hi, hm'⟩ := Sparse.wf_cons.mp hm
      obtain ⟨hj, hn'⟩ := Sparse.wf_cons.mp hn
      have key : i = j := by
        by_contra hne
        rcases Nat.lt_or_gt_of_ne hne with hlt | hlt
        · have := h i
          rw [Sparse.get_cons, if_pos rfl, Sparse.get_cons, if_neg (by omega),
            Sparse.get_eq_none_of_lt fun e he => hlt.trans (hj e he)] at this
          simp at this
        · have := h j
          rw [Sparse.get_cons (j := j), if_pos rfl, Sparse.get_cons, if_neg (by omega),
            Sparse.get_eq_none_of_lt fun e he => hlt.trans (hi e he)] at this
          simp at this
      subst key
      have hv : v = w := by simpa [Sparse.get_cons] using h i
      subst hv
      congr 1
      refine ih hm' hn' fun k => ?_
      by_cases hk : i = k
      · subst hk
        rw [Sparse.get_eq_none_of_lt hi, Sparse.get_eq_none_of_lt hj]
      · simpa [Sparse.get_cons, hk] using h k

/-- The later of two writes to a key wins. -/
theorem Sparse.set_set (m : List (Nat × α)) (k : Nat) (v w : α) :
    Sparse.set (Sparse.set m k v) k w = Sparse.set m k w := by
  induction m with
  | nil => simp [Sparse.set]
  | cons e m ih =>
    obtain ⟨j, x⟩ := e
    by_cases h1 : k < j
    · simp [Sparse.set, h1]
    · by_cases h2 : k = j
      · simp [Sparse.set, h2]
      · simp [Sparse.set, h1, h2, ih]

/-- Writes to different keys commute, in canonical form. -/
theorem Sparse.set_comm {m : List (Nat × α)} (h : Sparse.WF m) {j k : Nat} (hne : j ≠ k) (v w : α) :
    Sparse.set (Sparse.set m j v) k w = Sparse.set (Sparse.set m k w) j v := by
  refine Sparse.ext (Sparse.wf_set (Sparse.wf_set h _ _) _ _) (Sparse.wf_set (Sparse.wf_set h _ _) _ _) fun i => ?_
  simp only [Sparse.get_set]
  by_cases h1 : k = i
  · simp [h1, show j ≠ i by omega]
  · simp [h1]

/-- The Boolean check of a memory is the canonical form. -/
theorem Memory.wf_iff (m : Memory) : m.wf = true ↔ Sparse.WF m := by simp [Memory.wf]

end Sys2Proof.Machine
end

