-- ==== Sys2Proof/Laws/State.lean ====
section
/-! SUPPORT. What each named update of the state does to each field: one lemma per field per update, true by rfl, so that
no later proof unfolds a record update. -/

namespace Sys2Proof.Machine

variable (s : State)

/-! `State.writeEntry` -/

@[simp] theorem State.writeEntry_table (i : Nat) (d : Descriptor) : (s.writeEntry i d).table = Sparse.set s.table i d := rfl
@[simp] theorem State.writeEntry_ptr (i : Nat) (d : Descriptor) : (s.writeEntry i d).ptr = s.ptr := rfl
@[simp] theorem State.writeEntry_ptrValid (i : Nat) (d : Descriptor) : (s.writeEntry i d).ptrValid = s.ptrValid := rfl
@[simp] theorem State.writeEntry_phase (i : Nat) (d : Descriptor) : (s.writeEntry i d).phase = s.phase := rfl
@[simp] theorem State.writeEntry_fault (i : Nat) (d : Descriptor) : (s.writeEntry i d).fault = s.fault := rfl
@[simp] theorem State.writeEntry_faultCode (i : Nat) (d : Descriptor) : (s.writeEntry i d).faultCode = s.faultCode := rfl
@[simp] theorem State.writeEntry_loads (i : Nat) (d : Descriptor) : (s.writeEntry i d).loads = s.loads := rfl
@[simp] theorem State.writeEntry_answer (i : Nat) (d : Descriptor) : (s.writeEntry i d).answer = s.answer := rfl
@[simp] theorem State.writeEntry_pending (i : Nat) (d : Descriptor) : (s.writeEntry i d).pending = s.pending := rfl
@[simp] theorem State.writeEntry_presented (i : Nat) (d : Descriptor) : (s.writeEntry i d).presented = s.presented := rfl
@[simp] theorem State.writeEntry_consumer (i : Nat) (d : Descriptor) : (s.writeEntry i d).consumer = s.consumer.noteEntry i (s.entry i) (some d) := rfl

/-! `State.writePointer` -/

@[simp] theorem State.writePointer_table (q : TablePointer) : (s.writePointer q).table = s.table := rfl
@[simp] theorem State.writePointer_ptr (q : TablePointer) : (s.writePointer q).ptr = some q := rfl
@[simp] theorem State.writePointer_ptrValid (q : TablePointer) : (s.writePointer q).ptrValid = true := rfl
@[simp] theorem State.writePointer_phase (q : TablePointer) : (s.writePointer q).phase = s.phase := rfl
@[simp] theorem State.writePointer_fault (q : TablePointer) : (s.writePointer q).fault = s.fault := rfl
@[simp] theorem State.writePointer_faultCode (q : TablePointer) : (s.writePointer q).faultCode = s.faultCode := rfl
@[simp] theorem State.writePointer_loads (q : TablePointer) : (s.writePointer q).loads = s.loads := rfl
@[simp] theorem State.writePointer_answer (q : TablePointer) : (s.writePointer q).answer = s.answer := rfl
@[simp] theorem State.writePointer_pending (q : TablePointer) : (s.writePointer q).pending = s.pending := rfl
@[simp] theorem State.writePointer_presented (q : TablePointer) : (s.writePointer q).presented = s.presented := rfl
@[simp] theorem State.writePointer_consumer (q : TablePointer) : (s.writePointer q).consumer = s.consumer.notePtr s.ptr (some q) := rfl

/-! `State.populate` -/

@[simp] theorem State.populate_table : s.populate.table = s.table := rfl
@[simp] theorem State.populate_ptr : s.populate.ptr = s.ptr := rfl
@[simp] theorem State.populate_ptrValid : s.populate.ptrValid = s.ptrValid := rfl
@[simp] theorem State.populate_phase : s.populate.phase = (if s.phase = .uninit then .populated else s.phase) := rfl
@[simp] theorem State.populate_fault : s.populate.fault = s.fault := rfl
@[simp] theorem State.populate_faultCode : s.populate.faultCode = s.faultCode := rfl
@[simp] theorem State.populate_loads : s.populate.loads = s.loads := rfl
@[simp] theorem State.populate_answer : s.populate.answer = s.answer := rfl
@[simp] theorem State.populate_pending : s.populate.pending = s.pending := rfl
@[simp] theorem State.populate_presented : s.populate.presented = s.presented := rfl
@[simp] theorem State.populate_consumer : s.populate.consumer = s.consumer := rfl

/-! `State.emitLoad` -/

@[simp] theorem State.emitLoad_table (p : Params) (q : TablePointer) : (s.emitLoad p q).table = s.table := rfl
@[simp] theorem State.emitLoad_ptr (p : Params) (q : TablePointer) : (s.emitLoad p q).ptr = s.ptr := rfl
@[simp] theorem State.emitLoad_ptrValid (p : Params) (q : TablePointer) : (s.emitLoad p q).ptrValid = s.ptrValid := rfl
@[simp] theorem State.emitLoad_phase (p : Params) (q : TablePointer) : (s.emitLoad p q).phase = .installed := rfl
@[simp] theorem State.emitLoad_fault (p : Params) (q : TablePointer) : (s.emitLoad p q).fault = s.fault := rfl
@[simp] theorem State.emitLoad_faultCode (p : Params) (q : TablePointer) : (s.emitLoad p q).faultCode = s.faultCode := rfl
@[simp] theorem State.emitLoad_loads (p : Params) (q : TablePointer) : (s.emitLoad p q).loads = s.loads ++ [loadEventOf p q] := rfl
@[simp] theorem State.emitLoad_answer (p : Params) (q : TablePointer) : (s.emitLoad p q).answer = s.answer := rfl
@[simp] theorem State.emitLoad_pending (p : Params) (q : TablePointer) : (s.emitLoad p q).pending = s.pending := rfl
@[simp] theorem State.emitLoad_presented (p : Params) (q : TablePointer) : (s.emitLoad p q).presented = s.presented := rfl
@[simp] theorem State.emitLoad_consumer (p : Params) (q : TablePointer) : (s.emitLoad p q).consumer = Consumer.install q := rfl

/-! `State.answerWith` -/

@[simp] theorem State.answerWith_table (a : Answer) : (s.answerWith a).table = s.table := rfl
@[simp] theorem State.answerWith_ptr (a : Answer) : (s.answerWith a).ptr = s.ptr := rfl
@[simp] theorem State.answerWith_ptrValid (a : Answer) : (s.answerWith a).ptrValid = s.ptrValid := rfl
@[simp] theorem State.answerWith_phase (a : Answer) : (s.answerWith a).phase = s.phase := rfl
@[simp] theorem State.answerWith_fault (a : Answer) : (s.answerWith a).fault = s.fault := rfl
@[simp] theorem State.answerWith_faultCode (a : Answer) : (s.answerWith a).faultCode = s.faultCode := rfl
@[simp] theorem State.answerWith_loads (a : Answer) : (s.answerWith a).loads = s.loads := rfl
@[simp] theorem State.answerWith_answer (a : Answer) : (s.answerWith a).answer = some a := rfl
@[simp] theorem State.answerWith_pending (a : Answer) : (s.answerWith a).pending = s.pending := rfl
@[simp] theorem State.answerWith_presented (a : Answer) : (s.answerWith a).presented = s.presented := rfl
@[simp] theorem State.answerWith_consumer (a : Answer) : (s.answerWith a).consumer = s.consumer := rfl

/-! `State.raise` -/

@[simp] theorem State.raise_table (c : FaultCause) : (s.raise c).table = s.table := rfl
@[simp] theorem State.raise_ptr (c : FaultCause) : (s.raise c).ptr = s.ptr := rfl
@[simp] theorem State.raise_ptrValid (c : FaultCause) : (s.raise c).ptrValid = s.ptrValid := rfl
@[simp] theorem State.raise_phase (c : FaultCause) : (s.raise c).phase = s.phase := rfl
@[simp] theorem State.raise_fault (c : FaultCause) : (s.raise c).fault = true := rfl
@[simp] theorem State.raise_faultCode (c : FaultCause) : (s.raise c).faultCode = c.code := rfl
@[simp] theorem State.raise_loads (c : FaultCause) : (s.raise c).loads = s.loads := rfl
@[simp] theorem State.raise_answer (c : FaultCause) : (s.raise c).answer = some (.fault c) := rfl
@[simp] theorem State.raise_pending (c : FaultCause) : (s.raise c).pending = s.pending := rfl
@[simp] theorem State.raise_presented (c : FaultCause) : (s.raise c).presented = s.presented := rfl
@[simp] theorem State.raise_consumer (c : FaultCause) : (s.raise c).consumer = s.consumer := rfl

/-! `State.refuse` -/

@[simp] theorem State.refuse_table : s.refuse.table = s.table := rfl
@[simp] theorem State.refuse_ptr : s.refuse.ptr = s.ptr := rfl
@[simp] theorem State.refuse_ptrValid : s.refuse.ptrValid = s.ptrValid := rfl
@[simp] theorem State.refuse_phase : s.refuse.phase = s.phase := rfl
@[simp] theorem State.refuse_fault : s.refuse.fault = s.fault := rfl
@[simp] theorem State.refuse_faultCode : s.refuse.faultCode = s.faultCode := rfl
@[simp] theorem State.refuse_loads : s.refuse.loads = s.loads := rfl
@[simp] theorem State.refuse_answer : s.refuse.answer = some .refused := rfl
@[simp] theorem State.refuse_pending : s.refuse.pending = s.pending := rfl
@[simp] theorem State.refuse_presented : s.refuse.presented = s.presented := rfl
@[simp] theorem State.refuse_consumer : s.refuse.consumer = s.consumer := rfl

/-! `State.accept` -/

@[simp] theorem State.accept_table (rest : List CommandWord) : (s.accept rest).table = s.table := rfl
@[simp] theorem State.accept_ptr (rest : List CommandWord) : (s.accept rest).ptr = s.ptr := rfl
@[simp] theorem State.accept_ptrValid (rest : List CommandWord) : (s.accept rest).ptrValid = s.ptrValid := rfl
@[simp] theorem State.accept_phase (rest : List CommandWord) : (s.accept rest).phase = s.phase := rfl
@[simp] theorem State.accept_fault (rest : List CommandWord) : (s.accept rest).fault = s.fault := rfl
@[simp] theorem State.accept_faultCode (rest : List CommandWord) : (s.accept rest).faultCode = s.faultCode := rfl
@[simp] theorem State.accept_loads (rest : List CommandWord) : (s.accept rest).loads = s.loads := rfl
@[simp] theorem State.accept_answer (rest : List CommandWord) : (s.accept rest).answer = s.answer := rfl
@[simp] theorem State.accept_pending (rest : List CommandWord) : (s.accept rest).pending = rest := rfl
@[simp] theorem State.accept_presented (rest : List CommandWord) : (s.accept rest).presented = s.presented + 1 := rfl
@[simp] theorem State.accept_consumer (rest : List CommandWord) : (s.accept rest).consumer = s.consumer := rfl

/-! `State.present` -/

@[simp] theorem State.present_table (cw : CommandWord) : (s.present cw).table = s.table := rfl
@[simp] theorem State.present_ptr (cw : CommandWord) : (s.present cw).ptr = s.ptr := rfl
@[simp] theorem State.present_ptrValid (cw : CommandWord) : (s.present cw).ptrValid = s.ptrValid := rfl
@[simp] theorem State.present_phase (cw : CommandWord) : (s.present cw).phase = s.phase := rfl
@[simp] theorem State.present_fault (cw : CommandWord) : (s.present cw).fault = s.fault := rfl
@[simp] theorem State.present_faultCode (cw : CommandWord) : (s.present cw).faultCode = s.faultCode := rfl
@[simp] theorem State.present_loads (cw : CommandWord) : (s.present cw).loads = s.loads := rfl
@[simp] theorem State.present_answer (cw : CommandWord) : (s.present cw).answer = s.answer := rfl
@[simp] theorem State.present_pending (cw : CommandWord) : (s.present cw).pending = cw :: s.pending := rfl
@[simp] theorem State.present_presented (cw : CommandWord) : (s.present cw).presented = s.presented := rfl
@[simp] theorem State.present_consumer (cw : CommandWord) : (s.present cw).consumer = s.consumer := rfl

/-! `State.applyReset` -/

@[simp] theorem State.applyReset_table : s.applyReset.table = [] := rfl
@[simp] theorem State.applyReset_ptr : s.applyReset.ptr = none := rfl
@[simp] theorem State.applyReset_ptrValid : s.applyReset.ptrValid = false := rfl
@[simp] theorem State.applyReset_phase : s.applyReset.phase = .uninit := rfl
@[simp] theorem State.applyReset_fault : s.applyReset.fault = false := rfl
@[simp] theorem State.applyReset_faultCode : s.applyReset.faultCode = 0b00 := rfl
@[simp] theorem State.applyReset_loads : s.applyReset.loads = [] := rfl
@[simp] theorem State.applyReset_answer : s.applyReset.answer = none := rfl
@[simp] theorem State.applyReset_pending : s.applyReset.pending = s.pending := rfl
@[simp] theorem State.applyReset_presented : s.applyReset.presented = s.presented := rfl
@[simp] theorem State.applyReset_consumer : s.applyReset.consumer = s.consumer.afterBlockReset s.table s.ptr := rfl

/-! `State.withFetchWord` is `State.present` of the word; see Laws/Step.lean. `State.entry` reads the table alone. -/

theorem State.entry_eq (i : Nat) : s.entry i = Sparse.get s.table i := rfl

end Sys2Proof.Machine
end

