-- ==== Sys2Proof/Laws/Ops.lean ====
section
/-! SUPPORT. One lemma for each thing a shared operation does: what it leaves in the table, in the consumer's data, and
when each command takes which branch. -/

namespace Sys2Proof.Machine

variable (s : State) (p : Params)

/-! Collections without repeats. -/

theorem mem_addOnce {α : Type} [DecidableEq α] (xs : List α) (x y : α) : y ∈ addOnce xs x ↔ y ∈ xs ∨ y = x := by
  unfold addOnce
  split
  · next h => constructor
              · exact .inl
              · rintro (h' | rfl)
                · exact h'
                · exact h
  · simp

/-! What the consumer may still see. -/

@[simp] theorem Consumer.noteEntry_dtr (c : Consumer) (i : Nat) (old new : Option Descriptor) :
    (c.noteEntry i old new).dtr = c.dtr := by unfold Consumer.noteEntry; split <;> rfl

@[simp] theorem Consumer.notePtr_dtr (c : Consumer) (old new : Option TablePointer) :
    (c.notePtr old new).dtr = c.dtr := by unfold Consumer.notePtr; split <;> rfl

@[simp] theorem Consumer.noteEntry_oldPtrs (c : Consumer) (i : Nat) (old new : Option Descriptor) :
    (c.noteEntry i old new).oldPtrs = c.oldPtrs := by unfold Consumer.noteEntry; split <;> rfl

@[simp] theorem Consumer.notePtr_oldEntries (c : Consumer) (old new : Option TablePointer) :
    (c.notePtr old new).oldEntries = c.oldEntries := by unfold Consumer.notePtr; split <;> rfl

/-- A write that changes nothing leaves nothing to note (R145). -/
@[simp] theorem Consumer.noteEntry_same (c : Consumer) (i : Nat) (d : Option Descriptor) :
    c.noteEntry i d d = c := by simp [Consumer.noteEntry]

@[simp] theorem Consumer.notePtr_same (c : Consumer) (q : Option TablePointer) : c.notePtr q q = c := by
  simp [Consumer.notePtr]

/-- Before any load event there is nothing to note. -/
theorem Consumer.noteEntry_of_none {c : Consumer} (h : c.dtr = none) (i : Nat) (old new : Option Descriptor) :
    c.noteEntry i old new = c := by simp [Consumer.noteEntry, h]

theorem Consumer.notePtr_of_none {c : Consumer} (h : c.dtr = none) (old new : Option TablePointer) :
    c.notePtr old new = c := by simp [Consumer.notePtr, h]

/-- The earlier values of an entry after a write. -/
theorem Consumer.mem_oldOf_noteEntry (c : Consumer) (i : Nat) (old new : Option Descriptor) (j : Nat)
    (x : Option Descriptor) :
    x ∈ (c.noteEntry i old new).oldOf j ↔
      x ∈ c.oldOf j ∨ (i = j ∧ x = old ∧ c.dtr ≠ none ∧ old ≠ new) := by
  unfold Consumer.noteEntry
  split
  · next h => grind
  · next h =>
    simp only [Consumer.oldOf, Sparse.get_set]
    by_cases hij : i = j
    · subst hij
      simp only [if_pos, Option.getD_some, mem_addOnce, true_and]
      grind
    · simp [hij]

@[simp] theorem Consumer.oldOf_notePtr (c : Consumer) (old new : Option TablePointer) (j : Nat) :
    (c.notePtr old new).oldOf j = c.oldOf j := by simp [Consumer.oldOf]

theorem Consumer.mem_oldPtrs_notePtr (c : Consumer) (old new x : Option TablePointer) :
    x ∈ (c.notePtr old new).oldPtrs ↔ x ∈ c.oldPtrs ∨ (x = old ∧ c.dtr ≠ none ∧ old ≠ new) := by
  unfold Consumer.notePtr
  split
  · next h => grind
  · next h => simp only [mem_addOnce]; grind

@[simp] theorem Consumer.install_dtr (q : TablePointer) : (Consumer.install q).dtr = some q := rfl
@[simp] theorem Consumer.install_oldOf (q : TablePointer) (i : Nat) : (Consumer.install q).oldOf i = [] := rfl
@[simp] theorem Consumer.install_oldPtrs (q : TablePointer) : (Consumer.install q).oldPtrs = [] := rfl

/-! The table. -/

/-- R80: the entry written, and every other entry. -/
theorem State.entry_writeEntry (i : Nat) (d : Descriptor) (j : Nat) :
    (s.writeEntry i d).entry j = if i = j then some d else s.entry j := Sparse.get_set _ _ _ _

@[simp] theorem State.entry_writePointer (q : TablePointer) (j : Nat) :
    (s.writePointer q).entry j = s.entry j := rfl
@[simp] theorem State.entry_populate (j : Nat) : s.populate.entry j = s.entry j := rfl
@[simp] theorem State.entry_emitLoad (q : TablePointer) (j : Nat) : (s.emitLoad p q).entry j = s.entry j := rfl
@[simp] theorem State.entry_answerWith (a : Answer) (j : Nat) : (s.answerWith a).entry j = s.entry j := rfl
@[simp] theorem State.entry_raise (c : FaultCause) (j : Nat) : (s.raise c).entry j = s.entry j := rfl
@[simp] theorem State.entry_refuse (j : Nat) : s.refuse.entry j = s.entry j := rfl
@[simp] theorem State.entry_accept (rest : List CommandWord) (j : Nat) : (s.accept rest).entry j = s.entry j := rfl
@[simp] theorem State.entry_applyReset (j : Nat) : s.applyReset.entry j = none := rfl

/-! The Table Builder's writes. -/

@[simp] theorem State.writeCanonical_ptr : (s.writeCanonical p).ptr = s.ptr := rfl
@[simp] theorem State.writeCanonical_ptrValid : (s.writeCanonical p).ptrValid = s.ptrValid := rfl
@[simp] theorem State.writeCanonical_phase : (s.writeCanonical p).phase = s.phase := rfl
@[simp] theorem State.writeCanonical_fault : (s.writeCanonical p).fault = s.fault := rfl
@[simp] theorem State.writeCanonical_faultCode : (s.writeCanonical p).faultCode = s.faultCode := rfl
@[simp] theorem State.writeCanonical_loads : (s.writeCanonical p).loads = s.loads := rfl
@[simp] theorem State.writeCanonical_answer : (s.writeCanonical p).answer = s.answer := rfl
@[simp] theorem State.writeCanonical_pending : (s.writeCanonical p).pending = s.pending := rfl
@[simp] theorem State.writeCanonical_presented : (s.writeCanonical p).presented = s.presented := rfl

/-- The Table Builder's writes are five entry writes, in order (R91, R93). -/
theorem State.writeCanonical_eq :
    s.writeCanonical p =
      ((((s.writeEntry 0 nullDescriptor).writeEntry 1 (flatDescriptor accKcode)).writeEntry 2
        (flatDescriptor p.canon.kdata)).writeEntry 3 (flatDescriptor p.canon.ucode)).writeEntry 4
        (flatDescriptor p.canon.udata) := rfl

@[simp] theorem State.writeCanonical_dtr : (s.writeCanonical p).consumer.dtr = s.consumer.dtr := by
  simp [State.writeCanonical_eq]

@[simp] theorem State.writeCanonical_oldPtrs : (s.writeCanonical p).consumer.oldPtrs = s.consumer.oldPtrs := by
  simp [State.writeCanonical_eq]

/-- Entries 0 to 4 are the canonical five, every other entry is as before (R91, R96). -/
theorem State.entry_writeCanonical (j : Nat) :
    (s.writeCanonical p).entry j = (Sparse.get (canonEntries p) j).or (s.entry j) := by
  simp only [State.writeCanonical_eq, State.entry_writeEntry, canonEntries, Sparse.get_cons, Sparse.get_nil]
  by_cases h0 : 0 = j
  · subst h0; simp
  by_cases h1 : 1 = j
  · subst h1; simp
  by_cases h2 : 2 = j
  · subst h2; simp
  by_cases h3 : 3 = j
  · subst h3; simp
  by_cases h4 : 4 = j
  · subst h4; simp
  simp [h0, h1, h2, h3, h4]

theorem State.entry_writeCanonical_ne_none (j : Nat) (h : j < 5) : (s.writeCanonical p).entry j ≠ none := by
  rw [State.entry_writeCanonical]
  have : j = 0 ∨ j = 1 ∨ j = 2 ∨ j = 3 ∨ j = 4 := by omega
  rcases this with rfl | rfl | rfl | rfl | rfl <;> simp [canonEntries, Sparse.get_cons]

/-- The descriptors of R91 as numbers. -/
theorem nullDescriptor_eq : nullDescriptor = 0x0000000000000000 := by decide
theorem flatDescriptor_kcode : flatDescriptor accKcode = 0x00CF9A000000FFFF := by decide
theorem flatDescriptor_kdata : flatDescriptor accKdata = 0x00CF92000000FFFF := by decide
theorem flatDescriptor_ucode : flatDescriptor accUcode = 0x00CFFA000000FFFF := by decide
theorem flatDescriptor_udata : flatDescriptor accUdata = 0x00CFF2000000FFFF := by decide

/-! The branches of each command (R123, R125). -/

@[simp] theorem unlessFaulted_true {s : State} (h : s.fault = true) (k : Result) :
    unlessFaulted s k = .next s.refuse := by simp [unlessFaulted, h]

@[simp] theorem unlessFaulted_false {s : State} (h : s.fault = false) (k : Result) : unlessFaulted s k = k := by
  simp [unlessFaulted, h]

variable {s p}

/-- R80: an in-bounds ENCODE executes. -/
theorem encodeCmd_ok {lw aw fw : Nat} {index : BitVec 8} (hf : s.fault = false) (hi : index.toNat < p.nEntries)
    (base : BitVec 32) (limit : BitVec lw) (access : BitVec aw) (flags : BitVec fw) :
    encodeCmd p index base limit access flags s =
      .next ((s.writeEntry index.toNat (pack base limit access flags)).answerWith .ok) := by
  simp [encodeCmd, hf, Nat.not_le.mpr hi]

/-- R81: an out-of-bounds ENCODE faults. -/
theorem encodeCmd_index {lw aw fw : Nat} {index : BitVec 8} (hf : s.fault = false) (hi : p.nEntries ≤ index.toNat)
    (base : BitVec 32) (limit : BitVec lw) (access : BitVec aw) (flags : BitVec fw) :
    encodeCmd p index base limit access flags s = .next (s.raise .index) := by
  simp [encodeCmd, hf, hi]

/-- R91: BUILD executes in every phase. -/
theorem buildCmd_ok (hf : s.fault = false) :
    buildCmd p s = .next (((s.writeCanonical p).populate).answerWith .ok) := by simp [buildCmd, hf]

/-- R100: MKPTR executes once the table is populated. -/
theorem mkptrCmd_ok (hf : s.fault = false) (hp : s.phase ≠ .uninit) :
    mkptrCmd p s = .next ((s.writePointer (pointerValue p)).answerWith .ok) := by simp [mkptrCmd, hf, hp]

/-- R101: MKPTR in `UNINIT` faults. -/
theorem mkptrCmd_order (hf : s.fault = false) (hp : s.phase = .uninit) :
    mkptrCmd p s = .next (s.raise .order) := by simp [mkptrCmd, hf, hp]

/-- R102: LOAD executes once the table is populated and the pointer assembled. -/
theorem loadCmd_ok {q : TablePointer} (hf : s.fault = false) (hp : s.phase ≠ .uninit) (hv : s.ptrValid = true)
    (hq : s.ptr = some q) :
    loadCmd p s = .next ((s.emitLoad p q).answerWith (.okWithLoad (loadEventOf p q))) := by
  simp [loadCmd, hf, hp, hv, hq]

/-- R102: LOAD out of order faults. -/
theorem loadCmd_order (hf : s.fault = false) (h : s.phase = .uninit ∨ s.ptrValid = false) :
    loadCmd p s = .next (s.raise .order) := by simp [loadCmd, hf, h]

/-- R106: INIT executes in every phase. -/
theorem initCmd_ok (hf : s.fault = false) :
    initCmd p s = .next ((((s.writeCanonical p).writePointer (pointerValue p)).emitLoad p
      (pointerValue p)).answerWith (.okWithLoad (loadEventOf p (pointerValue p)))) := by simp [initCmd, hf]

/-- R125: every command is refused while `fault = 1`. -/
theorem exec_refused (hf : s.fault = true) (i : Instr) : exec i s = .next s.refuse := by
  cases i <;> simp [exec, execEncode, encodeCmd, execBuild, buildCmd, execMkptr, mkptrCmd, execLoad, loadCmd, execInit,
    initCmd, hf]

end Sys2Proof.Machine
end

