-- ==== Sys2Proof/Laws/Image.lean ====
section
/-! SUPPORT. The laws of the two memory images: where an address lies, what each operation does to a byte, and that the
memory is always in its canonical form. -/

namespace Sys2Proof.Machine

variable {p : Params} {s : State}

/-! This hardware's parameters are legal whatever the two OPEN addresses are (R5). -/

theorem placement_legal : PlacementLegal 5 placement.1 placement.2 := by
  unfold placement
  split
  · assumption
  · decide

theorem hw_legal : hw.Legal := ⟨by decide, by decide, placement_legal⟩

@[simp] theorem hw_nEntries : hw.nEntries = 5 := rfl
@[simp] theorem hw_canon : hw.canon = canonDefault := rfl

/-! Where an address lies. -/

theorem locate_entry {i k : Nat} (hi : i < p.nEntries) (hk : k < 8) :
    locate p (entryAddr p i + k) = some (.entry i k) := by
  unfold locate entryAddr selector
  rw [if_pos (by omega)]
  congr 2 <;> omega

theorem locate_pointer (hp : p.Legal) {k : Nat} (hk : k < 6) :
    locate p (p.ptrAddr.toNat + k) = some (.pointer k) := by
  obtain ⟨-, -, -, -, ho⟩ := hp
  unfold locate
  rw [if_neg (by omega), if_pos (by omega)]
  congr 2; omega

theorem locate_eq_entry {a i k : Nat} (h : locate p a = some (.entry i k)) :
    i < p.nEntries ∧ k < 8 ∧ a = entryAddr p i + k := by
  unfold locate at h
  split at h
  · simp only [Option.some.injEq, Place.entry.injEq] at h
    obtain ⟨rfl, rfl⟩ := h
    unfold entryAddr selector
    omega
  · split at h <;> simp at h

theorem locate_eq_pointer {a k : Nat} (h : locate p a = some (.pointer k)) :
    k < 6 ∧ a = p.ptrAddr.toNat + k := by
  unfold locate at h
  split at h
  · simp at h
  · split at h
    · simp only [Option.some.injEq, Place.pointer.injEq] at h
      omega
    · simp at h

/-- The addresses outside both images. -/
theorem locate_eq_none {a : Nat} :
    locate p a = none ↔
      ¬(p.tableBase.toNat ≤ a ∧ a < p.tableBase.toNat + 8 * p.nEntries) ∧
        ¬(p.ptrAddr.toNat ≤ a ∧ a < p.ptrAddr.toNat + 6) := by
  unfold locate
  split
  · simp_all
  · split <;> simp_all

/-! One byte of the images. -/

/-- R32: byte `k` of entry `i`. -/
theorem imageByte_entry {i k : Nat} (hi : i < p.nEntries) (hk : k < 8) :
    imageByte p s (entryAddr p i + k) = (s.entry i).map (byteOf · k) := by
  simp [imageByte, locate_entry hi hk]

/-- R33: byte `k` of the pointer record. -/
theorem imageByte_pointer (hp : p.Legal) {k : Nat} (hk : k < 6) :
    imageByte p s (p.ptrAddr.toNat + k) = s.ptr.map fun q => byteOf q.packed k := by
  simp [imageByte, locate_pointer hp hk]

/-- The images depend on the table and the pointer alone. -/
theorem imageByte_congr {t : State} (he : ∀ i, t.entry i = s.entry i) (hq : t.ptr = s.ptr) (a : Nat) :
    imageByte p t a = imageByte p s a := by
  unfold imageByte
  split <;> simp [he, hq]

/-- R80: the eight bytes an entry write changes, and every other byte. -/
theorem imageByte_writeEntry (i : Nat) (d : Descriptor) (a : Nat) :
    imageByte p (s.writeEntry i d) a =
      match locate p a with
      | some (.entry j k) => if i = j then some (byteOf d k) else imageByte p s a
      | _ => imageByte p s a := by
  unfold imageByte
  split
  · next h => simp only [h, State.entry_writeEntry]; split <;> rfl
  · next h => simp [h]
  · next h => simp [h]

/-- An entry write leaves every byte outside the entry alone. -/
theorem imageByte_writeEntry_outside {i : Nat} {d : Descriptor} {a : Nat}
    (ha : ¬(entryAddr p i ≤ a ∧ a < entryAddr p i + 8)) :
    imageByte p (s.writeEntry i d) a = imageByte p s a := by
  rw [imageByte_writeEntry]
  split
  · next j k h =>
    obtain ⟨-, hk, rfl⟩ := locate_eq_entry h
    rw [if_neg]
    rintro rfl
    omega
  · rfl

/-- A pointer write leaves every byte outside the pointer record alone. -/
theorem imageByte_writePointer_outside {q : TablePointer} {a : Nat}
    (ha : ¬(p.ptrAddr.toNat ≤ a ∧ a < p.ptrAddr.toNat + 6)) :
    imageByte p (s.writePointer q) a = imageByte p s a := by
  unfold imageByte
  split
  · rfl
  · next k h => obtain ⟨hk, rfl⟩ := locate_eq_pointer h; omega
  · rfl

@[simp] theorem imageByte_populate (a : Nat) : imageByte p s.populate a = imageByte p s a := rfl
@[simp] theorem imageByte_emitLoad (p' : Params) (q : TablePointer) (a : Nat) :
    imageByte p (s.emitLoad p' q) a = imageByte p s a := rfl
@[simp] theorem imageByte_answerWith (x : Answer) (a : Nat) : imageByte p (s.answerWith x) a = imageByte p s a := rfl
@[simp] theorem imageByte_raise (c : FaultCause) (a : Nat) : imageByte p (s.raise c) a = imageByte p s a := rfl
@[simp] theorem imageByte_refuse (a : Nat) : imageByte p s.refuse a = imageByte p s a := rfl
@[simp] theorem imageByte_accept (rest : List CommandWord) (a : Nat) :
    imageByte p (s.accept rest) a = imageByte p s a := rfl

/-! The memory is in its canonical form. -/

theorem imageAddrs_rising (hp : p.Legal) : (imageAddrs p).Pairwise (· < ·) := by
  obtain ⟨-, -, -, -, ho⟩ := hp
  unfold imageAddrs
  split
  · refine List.pairwise_append.mpr ⟨List.pairwise_lt_range', List.pairwise_lt_range', fun a ha b hb => ?_⟩
    simp only [List.mem_range'_1] at ha hb
    omega
  · refine List.pairwise_append.mpr ⟨List.pairwise_lt_range', List.pairwise_lt_range', fun a ha b hb => ?_⟩
    simp only [List.mem_range'_1] at ha hb
    omega

/-- Pairing rising addresses with bytes keeps them rising. -/
theorem Sparse.wf_filterMap {f : Nat → Option Byte} {as : List Nat} (h : as.Pairwise (· < ·)) :
    Sparse.WF (as.filterMap fun a => (f a).map fun b => (a, b)) := by
  unfold Sparse.WF
  rw [List.map_filterMap]
  refine List.Pairwise.filterMap (R := (· < ·)) _ (fun a a' haa' b hb b' hb' => ?_) h
  simp only [Option.map_map] at hb hb'
  cases hfa : f a <;> cases hfa' : f a' <;> simp [hfa, hfa'] at hb hb'
  omega

/-- Every state's memory, and so the memory every operation leaves, is in canonical form. -/
theorem memory_wf (hp : p.Legal) (s : State) : (s.memory p).wf = true :=
  (Memory.wf_iff _).mpr (Sparse.wf_filterMap (imageAddrs_rising hp))

/-- The memory right after reset lists nothing, and is in canonical form. -/
theorem memory_reset (p : Params) : State.reset.memory p = [] := by
  unfold State.memory
  rw [List.filterMap_eq_nil_iff]
  intro a _
  have : imageByte p State.reset a = none := by unfold imageByte; split <;> rfl
  simp [this]

theorem memory_reset_wf (p : Params) : (State.reset.memory p).wf = true := by rw [memory_reset]; decide

/-! Reads of several bytes. -/

/-- A read that gets every byte. -/
theorem readBytes_ok {f : Nat → Except Fault Byte} {g : Nat → Byte} {n : Nat} {a : Nat}
    (h : ∀ k, k < n → f (a + k) = .ok (g k)) : readBytes f a n = .ok ((List.range n).map g) := by
  induction n generalizing a g with
  | zero => rfl
  | succ n ih =>
    have h0 := h 0 (by omega)
    have hs := ih (a := a + 1) (g := fun k => g (k + 1)) fun k hk => by
      have := h (k + 1) (by omega)
      rwa [Nat.add_assoc, Nat.add_comm 1 k]
    simp only [Nat.add_zero] at h0
    simp only [readBytes, h0, hs, List.range_succ_eq_map, List.map_cons, List.map_map]
    rfl

/-- A read that meets a byte it cannot get. -/
theorem readBytes_error {f : Nat → Except Fault Byte} {n k : Nat} {a : Nat} (hk : k < n) {e : Fault}
    (h : f (a + k) = .error e) : ∃ e', readBytes f a n = .error e' := by
  induction n generalizing a k with
  | zero => omega
  | succ n ih =>
    cases hf : f a with
    | error e' => exact ⟨e', by simp [readBytes, hf]⟩
    | ok b =>
      cases k with
      | zero => simp [hf] at h
      | succ k =>
        obtain ⟨e', he'⟩ := ih (a := a + 1) (k := k) (by omega) (by rwa [Nat.add_assoc, Nat.add_comm 1 k])
        exact ⟨e', by simp [readBytes, hf, he']⟩

/-- A read depends on its byte function only at the bytes it covers. -/
theorem readBytes_congr {f g : Nat → Except Fault Byte} {n : Nat} {a : Nat}
    (h : ∀ k, k < n → f (a + k) = g (a + k)) : readBytes f a n = readBytes g a n := by
  induction n generalizing a with
  | zero => rfl
  | succ n ih =>
    have h0 : f a = g a := by simpa using h 0 (by omega)
    have hs := ih (a := a + 1) fun k hk => by
      have := h (k + 1) (by omega)
      rwa [Nat.add_assoc, Nat.add_comm 1 k]
    simp only [readBytes, h0, hs]

end Sys2Proof.Machine
end

