-- ==== Sys2Proof/Laws/PerInstr.lean ====
section
/-! SUPPORT. Facts said of every command as syntax, one lemma per constructor: the canonical word carries the command's
opcode (R52, R58), and its decoding has the command's mnemonic. -/

namespace Sys2Proof.Laws.OpcodeField

/-- The canonical word's opcode field is the command's opcode (R58). -/
def Statement (i : Instr) : Prop := fieldOp (Sys2Proof.encode i) = i.opcode

theorem encode (index : BitVec 8) (base limit : BitVec 32) (access flags : BitVec 8) :
    Statement (.encode index base limit access flags) :=
  (fields_of_concat index base limit access flags 0x01).1

theorem build : Statement .build := fieldOp_of_op 0x02 0
theorem mkptr : Statement .mkptr := fieldOp_of_op 0x03 0
theorem load : Statement .load := fieldOp_of_op 0x04 0
theorem init : Statement .init := fieldOp_of_op 0x05 0

end Sys2Proof.Laws.OpcodeField
end

