-- ==== Sys2Proof/Laws/Reads.lean ====
section
/-! SUPPORT. The laws of reads: the bytes of the pointer record, the value a read makes of its bytes, and what the consumer
may see of a byte. -/

namespace Sys2Proof.Machine

variable {p : Params} {s : State}

/-! The pointer record (R33). -/

/-- Bytes 0 and 1 are the limit's. -/
theorem byteOf_packed_limit (q : TablePointer) {k : Nat} (h : k < 2) :
    byteOf q.packed k = q.limit.extractLsb' (8 * k) 8 := by
  unfold byteOf TablePointer.packed
  exact slice_append_low q.base q.limit (by omega)

/-- Bytes 2 to 5 are the base's. -/
theorem byteOf_packed_base (q : TablePointer) {k : Nat} (h : 2 ≤ k) :
    byteOf q.packed k = q.base.extractLsb' (8 * (k - 2)) 8 := by
  unfold byteOf TablePointer.packed
  rw [show 8 * (k - 2) = 8 * k - 16 by omega]
  exact slice_append_high q.base q.limit 8 (by omega)

/-! The value of a read (R31). -/

/-- Each bit of the value is the bit of the byte it lies in. -/
theorem valueOfBytes_bit {bs : List Byte} (hb : bs.length ≤ 8) (j : Nat) :
    (valueOfBytes bs).getLsbD j =
      match bs[j / 8]? with
      | some b => b.getLsbD (j % 8)
      | none => false := by
  induction bs generalizing j with
  | nil => simp [valueOfBytes]
  | cons b rest ih =>
    have ih := ih (by simp at hb; omega)
    simp only [valueOfBytes, BitVec.getLsbD_or, BitVec.getLsbD_shiftLeft, BitVec.getLsbD_setWidth]
    by_cases h8 : j < 8
    · have h0 : j / 8 = 0 := by omega
      have hm : j % 8 = j := by omega
      have : j < 64 := by omega
      simp [*]
    · rw [ih, show j / 8 = (j - 8) / 8 + 1 by omega, show j % 8 = (j - 8) % 8 by omega, List.getElem?_cons_succ]
      have hb8 : b.getLsbD j = false := BitVec.getLsbD_of_ge _ _ (by omega)
      by_cases h64 : j < 64
      · simp [h64, h8, hb8]
      · have hn : rest[(j - 8) / 8]? = none := by
          rw [List.getElem?_eq_none_iff]
          simp at hb
          omega
        simp [h64, hn]

/-- The same of a list given by a function. -/
theorem valueOfBytes_range_bit {n : Nat} {g : Nat → Byte} (h : n ≤ 8) (j : Nat) :
    (valueOfBytes ((List.range n).map g)).getLsbD j = (decide (j / 8 < n) && (g (j / 8)).getLsbD (j % 8)) := by
  rw [valueOfBytes_bit (by simpa using h)]
  by_cases hj : j / 8 < n <;> simp [hj]

/-- A read whose bytes all have values. -/
theorem memRead_of_bytes {a : Addr} {n : Nat} {g : Nat → Byte} (h1 : 1 ≤ n) (h8 : n ≤ 8)
    (h : ∀ k, k < n → imageByte p s (a.toNat + k) = some (g k)) :
    memRead p s a n = .ok (valueOfBytes ((List.range n).map g)) := by
  unfold memRead readWith
  rw [if_pos ⟨h1, h8⟩, readBytes_ok (g := g)]
  intro k hk
  have hb := h k hk
  unfold byteForRead
  rw [if_neg, hb]
  intro hl
  simp [imageByte, hl] at hb

/-! What the consumer may see of a byte (R44). -/

theorem mem_byteViews_entry {a i k : Nat} (hl : locate p a = some (.entry i k)) (v : Option Byte) :
    v ∈ byteViews p s a ↔ ∃ d, (d ∈ s.consumer.oldOf i ∨ d = s.entry i) ∧ d.map (byteOf · k) = v := by
  simp only [byteViews, hl, List.mem_map, List.mem_append, List.mem_singleton]

theorem mem_byteViews_pointer {a k : Nat} (hl : locate p a = some (.pointer k)) (v : Option Byte) :
    v ∈ byteViews p s a ↔
      ∃ q : Option TablePointer, (q ∈ s.consumer.oldPtrs ∨ q = s.ptr) ∧ q.map (fun r => byteOf r.packed k) = v := by
  simp only [byteViews, hl, List.mem_map, List.mem_append, List.mem_singleton]

theorem byteViews_outside {a : Nat} (hl : locate p a = none) : byteViews p s a = [] := by simp [byteViews, hl]

end Sys2Proof.Machine
end

