-- ==== Sys2Proof/Laws/Step.lean ====
section
/-! SUPPORT. What a step can do, said once: the moves of the block, and the inversion of exec and of step into them. Every
invariant is derived from these. -/

namespace Sys2Proof.Machine

/-- Every move the block can make on a command, with the conditions it needs (R123 to R125 and the command rules). -/
inductive Moves (p : Params) (s : State) : State → Prop where
  | refused (hf : s.fault = true) : Moves p s s.refuse
  | faulted (hf : s.fault = false) (c : FaultCause) : Moves p s (s.raise c)
  | encoded (hf : s.fault = false) (i : Nat) (hi : i < p.nEntries) (d : Descriptor) :
      Moves p s ((s.writeEntry i d).answerWith .ok)
  | built (hf : s.fault = false) : Moves p s (((s.writeCanonical p).populate).answerWith .ok)
  | pointed (hf : s.fault = false) (hp : s.phase ≠ .uninit) :
      Moves p s ((s.writePointer (pointerValue p)).answerWith .ok)
  | loaded (hf : s.fault = false) (hp : s.phase ≠ .uninit) (hv : s.ptrValid = true) (q : TablePointer)
      (hq : s.ptr = some q) : Moves p s ((s.emitLoad p q).answerWith (.okWithLoad (loadEventOf p q)))
  | inited (hf : s.fault = false) :
      Moves p s ((((s.writeCanonical p).writePointer (pointerValue p)).emitLoad p (pointerValue p)).answerWith
        (.okWithLoad (loadEventOf p (pointerValue p))))

variable {s t : State}

theorem moves_unlessFaulted {k : Result} {p : Params} (h : unlessFaulted s k = .next t)
    (hk : s.fault = false → k = .next t → Moves p s t) : Moves p s t := by
  cases hf : s.fault with
  | true =>
    rw [unlessFaulted_true hf] at h
    cases h
    exact .refused hf
  | false => exact hk hf (by rwa [unlessFaulted_false hf] at h)

/-- Whatever exec answers next is a move. -/
theorem exec_moves {i : Instr} (h : exec i s = .next t) : Moves hw s t := by
  cases i with
  | encode index base limit access flags =>
    refine moves_unlessFaulted h fun hf hk => ?_
    split at hk
    · cases hk; exact .faulted hf _
    · next hi => cases hk; exact .encoded hf _ (Nat.not_le.mp hi) _
  | build => exact moves_unlessFaulted h fun hf hk => by cases hk; exact .built hf
  | mkptr =>
    refine moves_unlessFaulted h fun hf hk => ?_
    split at hk
    · cases hk; exact .faulted hf _
    · next hp => cases hk; exact .pointed hf hp
  | load =>
    refine moves_unlessFaulted h fun hf hk => ?_
    split at hk
    · cases hk; exact .faulted hf _
    · next hc =>
      simp only [not_or, Bool.not_eq_false] at hc
      split at hk
      · next q hq => cases hk; exact .loaded hf hc.1 hc.2 q hq
      · cases hk
  | init => exact moves_unlessFaulted h fun hf hk => by cases hk; exact .inited hf

/-- Whatever a command word makes the block answer next is a move. -/
theorem runWord_moves {cw : CommandWord} (h : runWord cw s = .next t) : Moves hw s t := by
  unfold runWord at h
  split at h
  · exact exec_moves h
  · exact moves_unlessFaulted h fun hf hk => by cases hk; exact .faulted hf _

/-- A step waits, or takes the next word and makes a move. -/
theorem step_cases (h : step s = .next t) :
    (s.pending = [] ∧ t = s) ∨ ∃ cw rest, s.pending = cw :: rest ∧ Moves hw (s.accept rest) t := by
  unfold step transact at h
  split at h
  · next hp => cases h; exact .inl ⟨hp, rfl⟩
  · next cw rest hp => exact .inr ⟨cw, rest, hp, runWord_moves h⟩

theorem withFetchWord_eq (s : State) (nbits w : Nat) :
    s.withFetchWord nbits w = s.present (BitVec.ofNat 96 (w % 2 ^ nbits)) := rfl

/-- The step of a state whose host presents a word. -/
theorem step_present (s : State) (cw : CommandWord) :
    step (s.present cw) = runWord cw ((s.present cw).accept s.pending) := rfl

end Sys2Proof.Machine
end

