-- ==== Sys2Proof/Laws/Run.lean ====
section
/-! SUPPORT. Runs of several steps: they are the host's runs, they unfold one step at a time, and an induction over them
is packaged once. -/

namespace Sys2Proof.Machine

variable {s t u : State}

@[simp] theorem runSteps_zero (s : State) : runSteps 0 s = .next s := rfl

/-- The first step, then the rest. -/
theorem runSteps_succ (h : step s = .next t) (k : Nat) : runSteps (k + 1) s = runSteps k t := by
  simp [runSteps, h]

/-- A run whose first step stops, stops. -/
theorem runSteps_succ_fault {r : Fault} (h : step s = .fault r) (k : Nat) : runSteps (k + 1) s = .fault r := by
  simp [runSteps, h]

theorem runSteps_succ_refused {r : Refusal} (h : step s = .refused r) (k : Nat) :
    runSteps (k + 1) s = .refused r := by
  simp [runSteps, h]

/-- A run of one step more ends in a state only if its first step does. -/
theorem runSteps_succ_next {k : Nat} (h : runSteps (k + 1) s = .next u) :
    ∃ t, step s = .next t ∧ runSteps k t = .next u := by
  unfold runSteps at h
  split at h
  · next t ht => exact ⟨t, ht, h⟩
  · cases h
  · cases h

/-- What holds at the start and is kept by every step holds at the end. -/
theorem runSteps_keeps {P : State → Prop} (hP : ∀ s t, P s → step s = .next t → P t) {k : Nat} (hs : P s)
    (h : runSteps k s = .next t) : P t := by
  induction k generalizing s with
  | zero => cases h; exact hs
  | succ k ih =>
    obtain ⟨s', hs', h'⟩ := runSteps_succ_next h
    exact ih (hP _ _ hs hs') h'

/-- One step of a run of any machine, by the outcome of the step. -/
theorem run_succ (M : Host.Core) (k : Nat) (s : M.State) :
    (∀ t, M.step s = .next t → M.run (k + 1) s = M.run k t) ∧
      (∀ r, M.step s = .fault r → M.run (k + 1) s = .fault r) ∧
      (∀ r, M.step s = .refused r → M.run (k + 1) s = .refused r) := by
  refine ⟨fun t h => ?_, fun r h => ?_, fun r h => ?_⟩ <;> rw [Host.Core.run, h]

/-- The model's runs are the host's. -/
theorem core_run_eq (k : Nat) (s : State) : Host.Core.run Sys2Proof.core k s = runSteps k s := by
  induction k generalizing s with
  | zero => rfl
  | succ k ih =>
    have hM := run_succ Sys2Proof.core k s
    cases hs : step s with
    | next t => exact (hM.1 t hs).trans ((ih t).trans (runSteps_succ hs k).symm)
    | fault r => exact (hM.2.1 r hs).trans (runSteps_succ_fault hs k).symm
    | refused r => exact (hM.2.2 r hs).trans (runSteps_succ_refused hs k).symm

end Sys2Proof.Machine
end

