-- ==== Sys2Proof/Tests/Slice0.lean ====
section
/-! SUPPORT. The model's own tests. Every expected value is from spec/95_test_vectors.md (V<n>, P<n>) or from the rule named
with it. Then the witnesses: for each statement with hypotheses, a state and operands that meet them all. -/

namespace Sys2Proof.Tests

open Sys2Proof Sys2Proof.Machine

/-! ### Helpers -/

/-- The parameters of the spec's examples (95_test_vectors.md, conventions). -/
def demo : Params :=
  { nEntries := 5, tableBase := 0x00105000, ptrAddr := 0x00105028, canon := canonDefault }

/-- The six-entry instantiation of P3. -/
def demoSix : Params :=
  { nEntries := 6, tableBase := 0x00105000, ptrAddr := 0x00105030, canon := canonDefault }

/-- The state with the given table and phase, everything else as after reset. -/
def withTable (table : List (Nat × Descriptor)) (phase : Phase) : State :=
  { State.reset with table := table, phase := phase }

/-- The canonical table in numbers (V50). -/
def canonTable : List (Nat × Descriptor) :=
  [(0, 0x0000000000000000), (1, 0x00CF9A000000FFFF), (2, 0x00CF92000000FFFF), (3, 0x00CFFA000000FFFF),
    (4, 0x00CFF2000000FFFF)]

/-- After BUILD from reset (V50). -/
def built : State := withTable canonTable .populated

/-- After BUILD and MKPTR, with the parameters given. -/
def pointed (p : Params) : State := { built with ptr := some (pointerValue p), ptrValid := true }

/-- After INIT from reset, with the parameters given (V74). -/
def loaded (p : Params) : State :=
  { pointed p with
    phase := .installed
    loads := [loadEventOf p (pointerValue p)]
    consumer := Consumer.install (pointerValue p) }

/-- A state with a fault (P5). -/
def stuck : State := { built with fault := true, faultCode := 0b01 }

/-- What a step or a command gives about the state it reaches. -/
def after {α : Type} (r : Result) (f : State → α) : Option α :=
  match r with
  | .next t => some (f t)
  | .fault _ => none
  | .refused _ => none

/-- What a read gives, as an option. -/
def readValue (r : Except Fault (BitVec 64)) : Option (BitVec 64) :=
  match r with
  | .ok v => some v
  | .error _ => none

/-- Text of an assembler line. -/
def line (s : String) : List Char := s.toList

/-- What the assembler makes of a line, the error dropped. -/
def word (cs : List Char) : Option (Option CommandWord) :=
  match assembleLine cs with
  | .ok w => some w
  | .error _ => none

/-! ### Well-formedness: one ill-formed line for each check (R59) -/

theorem test_wf_refuses_wide_index : AsmLine.wellFormed (.encode 256 0 0 0 0) = false := by decide
theorem test_wf_refuses_wide_base : AsmLine.wellFormed (.encode 0 0x100000000 0 0 0) = false := by decide
theorem test_wf_refuses_wide_limit : AsmLine.wellFormed (.encode 0 0 0x100000000 0 0) = false := by decide
theorem test_wf_refuses_wide_access : AsmLine.wellFormed (.encode 0 0 0 0x100 0) = false := by decide
theorem test_wf_refuses_wide_flags : AsmLine.wellFormed (.encode 0 0 0 0 0x100) = false := by decide
theorem test_wf_refuses_wide_nulld : AsmLine.wellFormed (.nulld 256) = false := by decide
theorem test_wf_refuses_wide_flat_index : AsmLine.wellFormed (.flat 256 0) = false := by decide
theorem test_wf_refuses_wide_flat_access : AsmLine.wellFormed (.flat 0 0x100) = false := by decide
/-- R59: limits above 20 bits and low flag bits are not refused. -/
theorem test_wf_accepts_masked_bits : AsmLine.wellFormed (.encode 255 0xFFFFFFFF 0xFFFFFFFF 0xFF 0xFF) = true := by
  decide
theorem test_wf_accepts_operandless :
    AsmLine.wellFormed .build = true ∧ AsmLine.wellFormed .mkptr = true ∧ AsmLine.wellFormed .load = true ∧
      AsmLine.wellFormed .init = true := by decide

/-! ### Decoding words written out from R50 and R52: op, index, base, limit, access, flags -/

/-- V49a: every field distinct. -/
theorem test_decode_encode :
    decode 0x010212345678000ABCDE5A30 = .ok (.encode 0x02 0x12345678 0x000ABCDE 0x5A 0x30) := by decide
/-- V83: every operand bit set but the index's. -/
theorem test_decode_encode_ones :
    decode 0x0101FFFFFFFFFFFFFFFFFFFF = .ok (.encode 0x01 0xFFFFFFFF 0xFFFFFFFF 0xFF 0xFF) := by decide
/-- V51: junk in the operand fields. -/
theorem test_decode_build : decode 0x02AADEADBEEF123456785566 = .ok .build := by decide
/-- V60 -/
theorem test_decode_mkptr : decode 0x030000000000000000000000 = .ok .mkptr := by decide
/-- V70 -/
theorem test_decode_load : decode 0x040000000000000000000000 = .ok .load := by decide
/-- V84 -/
theorem test_decode_init : decode 0x05FFFFFFFFFFFFFFFFFFFFFF = .ok .init := by decide
/-- V80 to V82 -/
theorem test_decode_illegal :
    decode 0x000000000000000000000000 = .error (.illegalOp 0x00) ∧
      decode 0x060000000000000000000000 = .error (.illegalOp 0x06) ∧
      decode 0xFF0000000000000000000000 = .error (.illegalOp 0xFF) := by decide
/-- V1 as 12 bytes, most significant first (R50). -/
theorem test_decode_bytes :
    decodeBytes [0x01, 0x01, 0x00, 0x00, 0x00, 0x00, 0x00, 0x0F, 0xFF, 0xFF, 0x9A, 0xC0] =
      .ok (.encode 1 0 0xFFFFF 0x9A 0xC0) := by decide
theorem test_decode_short_bytes : decodeBytes [0x02] = .error (.badLength 1) := by decide
/-- V1, V47: the canonical encoder. -/
theorem test_encode_words :
    encode (.encode 1 0 0xFFFFF 0x9A 0xC0) = 0x010100000000000FFFFF9AC0 ∧
      encode (.encode 4 0 0xFFFFF 0xF2 0xC0) = 0x010400000000000FFFFFF2C0 ∧
      encode .init = 0x050000000000000000000000 := by decide
theorem test_hex_digits :
    hexDigitsOfWord 0x010212345678000ABCDE5A30 =
      [0, 1, 0, 2, 1, 2, 3, 4, 5, 6, 7, 8, 0, 0, 0, 10, 11, 12, 13, 14, 5, 10, 3, 0] := by decide
/-- The opcode table's own words (spec/opcode_table.json). -/
theorem test_table_words :
    decodeTableWord 96 0x020000000000000000000000 = some .build ∧
      decodeTableWord 96 0x050000000000000000000000 = some .init ∧ decodeTableWord 96 0 = none := by decide

/-! ### pack -/

/-- V12: every field distinct. -/
theorem test_pack_fields :
    pack 0x12345678 (0xABCDE : BitVec 32) (0x5A : BitVec 8) (0x30 : BitVec 8) = 0x123A5A345678BCDE := by decide
/-- V17: limit bit 20 and flags bits 2:0 dropped. -/
theorem test_pack_masks :
    pack 0xDEADBEEF (0x1ABCDE : BitVec 32) (0x92 : BitVec 8) (0xC7 : BitVec 8) = 0xDECA92ADBEEFBCDE := by decide
/-- V37: flags not pre-shifted are lost. -/
theorem test_pack_unshifted_flags :
    pack 0 (0xFFFFF : BitVec 32) (0x9A : BitVec 8) (0x0C : BitVec 8) = 0x000F9A000000FFFF := by decide
/-- V44 -/
theorem test_pack_limit_overflow :
    pack 0 (0xFFF12345 : BitVec 32) (0x9A : BitVec 8) (0xC0 : BitVec 8) = 0x00C19A0000002345 := by decide
/-- 95_test_vectors.md section 2.4: ports of 16 bits. -/
theorem test_pack_wide_ports :
    pack 0 (0 : BitVec 20) (0x019A : BitVec 16) (0x01C0 : BitVec 16) =
      pack 0 (0 : BitVec 20) (0x9A : BitVec 8) (0xC0 : BitVec 8) := by decide
/-- V20, V21: byte order of the 16-bit halves (log 7). -/
theorem test_byte_order :
    (List.range 8).map (byteOf (pack 0x000000FF (0x000FF : BitVec 32) (0 : BitVec 8) (0 : BitVec 8))) =
        [0xFF, 0, 0xFF, 0, 0, 0, 0, 0] ∧
      (List.range 8).map (byteOf (pack 0x0000FF00 (0x0FF00 : BitVec 32) (0 : BitVec 8) (0 : BitVec 8))) =
        [0, 0xFF, 0, 0xFF, 0, 0, 0, 0] := by decide
/-- V6 -/
theorem test_selectors : [0, 1, 4, 255].map selector = [0x00, 0x08, 0x20, 0x7F8] := by decide

/-! ### One command each -/

/-- V49a: entry 2 alone. -/
theorem test_encode_writes :
    after (exec (.encode 2 0x12345678 0xABCDE 0x5A 0x30) built) (fun t => (t.entry 1, t.entry 2, t.phase, t.answer)) =
      some (some 0x00CF9A000000FFFF, some 0x123A5A345678BCDE, .populated, some .ok) := by decide
/-- V48: index 5 faults, nothing written. -/
theorem test_encode_faults :
    after (exec (.encode 5 0 0xFFFFF 0x9A 0xC0) built) (fun t => (t.fault, t.faultCode, t.table, t.answer)) =
      some (true, 0b01, canonTable, some (.fault .index)) := by decide
/-- V50 -/
theorem test_build_table :
    after (exec .build State.reset) (fun t => (t.table, t.phase, t.ptrValid, t.loads)) =
      some (canonTable, .populated, false, []) := by decide
/-- V54: in INSTALLED the phase stays. -/
theorem test_build_installed :
    after (exec .build { State.reset with phase := .installed }) (fun t => t.phase) = some .installed := by decide
/-- V60: the limit, and the phase untouched. -/
theorem test_mkptr_limit :
    after (exec .mkptr built) (fun t => (t.ptr.map TablePointer.limit, t.ptrValid, t.phase)) =
      some (some 0x0027, true, .populated) := by decide
/-- V66: five ENCODEs are not a BUILD. -/
theorem test_mkptr_faults :
    after (exec .mkptr (withTable canonTable .uninit)) (fun t => (t.ptr, t.faultCode)) = some (none, 0b10) := by decide
/-- V70, with the parameters of the examples. -/
theorem test_load_event :
    after (loadCmd demo (pointed demo)) (fun t => (t.loads, t.phase, t.consumer.dtr)) =
      some ([⟨0x00105028, 0x0027, 0x00105000⟩], .installed, some ⟨0x0027, 0x00105000⟩) := by decide
/-- V72 -/
theorem test_load_faults :
    after (exec .load built) (fun t => (t.loads, t.faultCode, t.table)) = some ([], 0b10, canonTable) := by decide
/-- V74, with the parameters of the examples. -/
theorem test_init_state :
    after (initCmd demo State.reset) (fun t => (t.table, t.ptr, t.phase, t.loads)) =
      some (canonTable, some ⟨0x0027, 0x00105000⟩, .installed, [⟨0x00105028, 0x0027, 0x00105000⟩]) := by decide
/-- V77 -/
theorem test_init_refused :
    after (exec .init stuck) (fun t => (t.loads, t.faultCode, t.answer)) = some ([], 0b01, some .refused) := by decide
/-- V80 from reset, then P5's last line: the code of the first cause stays. -/
theorem test_illegal_word :
    after (step (State.reset.present 0)) (fun t => (t.faultCode, t.answer)) = some (0b11, some (.fault .illegal)) ∧
      after (step (stuck.present 0)) (fun t => (t.faultCode, t.answer)) = some (0b01, some .refused) := by decide
/-- 70_reset_and_hazards.md section 1: a reset clears the fault. -/
theorem test_block_reset : stuck.applyReset.fault = false ∧ stuck.applyReset.table = [] := by decide
/-- The host's word runs as the first instruction after reset. -/
theorem test_fetch_word :
    after (step (State.reset.withFetchWord 96 0x020000000000000000000000)) (fun t => (t.table, t.pending)) =
      some (canonTable, []) := by decide

/-! ### Other table lengths -/

/-- V53, P3: entry 5 is left by BUILD and written by ENCODE. -/
theorem test_six_entries :
    after (buildCmd demoSix State.reset) (fun t => t.entry 5) = some none ∧
      after (encodeCmd demoSix 5 0x00108000 (0x67 : BitVec 32) (0x89 : BitVec 8) (0x00 : BitVec 8) built)
        (fun t => t.entry 5) = some (some 0x0000891080000067) := by decide
/-- V61, V62 -/
theorem test_pointer_limits :
    pointerValue demoSix = ⟨0x002F, 0x00105000⟩ ∧
      pointerValue ⟨256, 0xFFFFF800, 0, canonDefault⟩ = ⟨0x07FF, 0xFFFFF800⟩ := by decide
/-- V63: an unaligned table is legal, and its pointer image. -/
theorem test_pointer_bytes :
    (List.range 6).map (byteOf (pointerValue ⟨5, 0x12345678, 0, canonDefault⟩).packed) =
      [0x27, 0x00, 0x78, 0x56, 0x34, 0x12] := by decide

/-! ### Reads -/

/-- V90 to V92 -/
theorem test_read_entry :
    readValue (memRead demo (loaded demo) 0x00105008 8) = some 0x00CF9A000000FFFF ∧
      readValue (memRead demo (loaded demo) 0x00105008 2) = some 0xFFFF ∧
      readValue (memRead demo (loaded demo) 0x0010500C 4) = some 0x00CF9A00 := by decide
/-- V93 -/
theorem test_read_access :
    [0x0010500D, 0x00105015, 0x0010501D, 0x00105025].map (fun a => readValue (memRead demo (loaded demo) a 1)) =
      [some 0x9A, some 0x92, some 0xFA, some 0xF2] := by decide
/-- V95 -/
theorem test_read_pointer :
    readValue (memRead demo (loaded demo) 0x00105028 2) = some 0x0027 ∧
      readValue (memRead demo (loaded demo) 0x0010502A 4) = some 0x00105000 := by decide
/-- V96: a byte with no value. -/
theorem test_read_unwritten :
    memRead demoSix (loaded demoSix) 0x00105028 1 = .error (.unwrittenByte 0x00105028) := by decide
/-- R34: no read before a load event. -/
theorem test_consumer_before_load : consumerRead demo built 0x00105008 1 = .error .notLoaded := by decide
/-- The memory as a list: 46 bytes, in canonical form. -/
theorem test_memory_list :
    ((loaded demo).memory demo).length = 46 ∧ ((loaded demo).memory demo).wf = true ∧ State.reset.memory demo = [] := by
  decide

/-! ### The assembler (R59 to R61) -/

/-- P3's second line. -/
theorem test_asm_encode :
    word (line "ENCODE 5, 0x00108000, 0x67, 0x89, 0x00       ; entry 5") = some (some 0x010500108000000000678900) := by
  decide
/-- P2: a pseudo-command with a named constant; a comment alone gives no word. -/
theorem test_asm_flat :
    word (line "FLAT  1, ACC_KCODE") = some (some 0x010100000000000FFFFF9AC0) ∧ word (line "  ; note") = some none := by
  decide
theorem test_asm_refuses :
    assembleLine (line "NULLD 256") = .error .operandTooWide ∧ assembleLine (line "init") = .error .unknownMnemonic ∧
      assembleLine (line "LOAD 1") = .error .badOperandCount ∧ assembleLine (line "NULLD x") = .error .badOperand := by
  decide

/-! ### Witnesses -/

theorem demo_legal : demo.Legal := by decide
theorem demoSix_legal : demoSix.Legal := by decide
/-- The largest table, at the top of the address space (V62). -/
theorem largest_legal : Params.Legal ⟨256, 0xFFFFF800, 0xFFFFF7FA, canonDefault⟩ := by decide

/-- The state after INIT meets the invariant, with this hardware's addresses whatever they are. -/
theorem loaded_inv : Inv hw (loaded hw) := by
  refine ⟨⟨by show Sparse.WF canonTable; decide, by show ∀ e ∈ canonTable, e.1 < 5; decide⟩,
    ⟨?_, ?_, ?_, ?_, ?_, ?_, ?_, ?_, ?_⟩, ⟨?_, ?_, ?_, ?_, ?_, ?_⟩⟩ <;>
    simp [loaded, pointed, built, withTable, State.reset, Consumer.install, Sparse.WF]
  show ∀ i, i < 5 → Sparse.get canonTable i ≠ none
  decide

theorem loaded_dtr : (loaded hw).consumer.dtr ≠ none := by simp [loaded, Consumer.install]

/-- LOAD on a state ready for it, as a step of `exec`. -/
theorem pointed_load :
    exec .load (pointed hw) =
      .next (((pointed hw).emitLoad hw (pointerValue hw)).answerWith (.okWithLoad (loadEventOf hw (pointerValue hw)))) :=
  loadCmd_ok (s := pointed hw) (p := hw) rfl (fun h => Phase.noConfusion h) rfl rfl

theorem witness_EncodeOperandsAreWordFields :
    ∃ cw cw' : CommandWord, cw.extractLsb' 88 8 = 0x01 ∧ cw.extractLsb' 48 48 = cw'.extractLsb' 48 48 ∧
      cw.extractLsb' 4 32 = cw'.extractLsb' 4 32 ∧ cw ≠ cw' :=
  ⟨0x010100000000000FFFFF9AC0, 0x010100000000FFFFFFFF9ACF, by decide⟩

theorem witness_DecodeEncodeRoundTrip :
    (∃ i : Instr, i.WellFormed) ∧ (∃ cw, decode cw = .ok (.encode 255 0 0 0 0)) ∧
      (∃ (cw : CommandWord) (i : Instr), decode cw = .ok i ∧ cw.extractLsb' 0 88 = 0) :=
  ⟨⟨.init, by decide⟩, ⟨0x01FF00000000000000000000, by decide⟩, 0x020000000000000000000000, .build, by decide⟩

theorem witness_OpcodeMapSelectsCommand :
    (∃ cw r, r ∈ opcodeRows ∧ r.hits cw = true) ∧
      (∃ (cw cw' : CommandWord) (i : Instr), fieldOp cw = fieldOp cw' ∧ cw ≠ cw' ∧ decode cw = .ok i) :=
  ⟨⟨0x05FFFFFFFFFFFFFFFFFFFFFF, ⟨"INIT", 0x050000000000000000000000, 0xFF0000000000000000000000⟩, by decide⟩,
    0x020000000000000000000000, 0x02AADEADBEEF123456785566, .build, by decide⟩

theorem witness_OperandlessFieldsIgnored :
    fieldOp 0x02AADEADBEEF123456785566 = 0x02 ∧ fieldOp 0x030000000000000000000001 = 0x03 ∧
      fieldOp 0x04FFFFFFFFFFFFFFFFFFFFFF = 0x04 ∧ fieldOp 0x05FFFFFFFFFFFFFFFFFFFFFF = 0x05 := by decide

theorem witness_ByteFormOfCommandWords :
    ([] : List Byte).length ≠ 12 ∧ (List.replicate 11 (0 : Byte)).length ≠ 12 ∧
      (List.replicate 13 (0 : Byte)).length ≠ 12 := by decide

theorem witness_ExcessOperandBitsAreMasked :
    pack 0 (0x00100000 : BitVec 32) (0 : BitVec 8) (0x0F : BitVec 8) =
      pack 0 (0 : BitVec 32) (0 : BitVec 8) (0 : BitVec 8) := by decide

theorem witness_LimitOverflowDoesNotLeak : 20 ≤ 20 ∧ 20 ≤ 32 := by decide

theorem witness_EncodeWritesOneEntry :
    stuck.fault = true ∧ State.reset.fault = false ∧ hw.nEntries ≤ (5 : BitVec 8).toNat ∧
      hw.nEntries ≤ (255 : BitVec 8).toNat ∧ (0 : BitVec 8).toNat < hw.nEntries ∧ (4 : BitVec 8).toNat < hw.nEntries := by
  decide

theorem witness_IndexOutOfBoundsFaults :
    built.fault = false ∧ demo.nEntries ≤ (5 : BitVec 8).toNat ∧ demoSix.nEntries ≤ (6 : BitVec 8).toNat := by decide

theorem witness_EncodesOverwriteAndCommute :
    built.fault = false ∧ (0 : BitVec 8).toNat < hw.nEntries ∧ (4 : BitVec 8).toNat < hw.nEntries ∧
      (0 : BitVec 8) ≠ 4 ∧ Sparse.WF built.table ∧ Sparse.WF built.consumer.oldEntries := by decide

theorem witness_BuildWritesCanonicalTable : State.reset.fault = false := by decide

theorem witness_BuildAdvancesThePhase :
    (State.reset.fault = false ∧ State.reset.phase = .uninit) ∧ (built.fault = false ∧ built.phase = .populated) ∧
      ((loaded demo).fault = false ∧ (loaded demo).phase = .installed) := by decide

theorem witness_BuildLeavesFurtherEntries : State.reset.fault = false ∧ 5 ≤ 5 ∧ 5 < demoSix.nEntries := by decide

theorem witness_BuildEqualsFiveEncodes : State.reset.fault = false := by decide

theorem witness_MkptrAssemblesPointer :
    stuck.fault = true ∧ (State.reset.fault = false ∧ State.reset.phase = .uninit) ∧
      (built.fault = false ∧ built.phase ≠ .uninit) ∧ demo.Legal ∧
      Params.Legal ⟨256, 0xFFFFF800, 0xFFFFF7FA, canonDefault⟩ := by decide

theorem witness_MkptrNeedsPopulatedTable :
    (State.reset.fault = false ∧ State.reset.phase = .uninit) ∧ (built.fault = false ∧ built.phase = .populated) ∧
      ((loaded demo).fault = false ∧ (loaded demo).phase = .installed) := by decide

theorem witness_LoadHandsOverPointer :
    (pointed demo).fault = false ∧ (pointed demo).phase ≠ .uninit ∧ (pointed demo).ptrValid = true ∧
      (pointed demo).ptr = some ⟨0x0027, 0x00105000⟩ := by decide

theorem witness_LoadOutOfOrderFaults :
    (State.reset.fault = false ∧ State.reset.phase = .uninit) ∧ (built.fault = false ∧ built.ptrValid = false) := by
  decide

theorem witness_OrderOfPopulationPointerLoadIsEnforced :
    (State.reset.fault = false ∧ (State.reset.ptrValid = true ↔ State.reset.ptr ≠ none)) ∧
      ((pointed demo).fault = false ∧ ((pointed demo).ptrValid = true ↔ (pointed demo).ptr ≠ none)) := by decide

theorem witness_InitInstallsCanonicalTable : State.reset.fault = false ∧ (loaded demo).fault = false := by decide

theorem witness_InitEqualsBuildMkptrLoad : stuck.fault = true ∧ State.reset.fault = false := by decide

theorem witness_InitIsIdempotentOnBytes :
    State.reset.fault = false ∧ (0 : BitVec 8).toNat < hw.nEntries ∧ (4 : BitVec 8).toNat < hw.nEntries := by decide

theorem witness_StepRunsPresentedCommand :
    (∃ (s : State) (cw : CommandWord) (rest : List CommandWord) (i : Instr),
        s.pending = cw :: rest ∧ decode cw = .ok i ∧ i.WellFormed) ∧
      decodeTableWord 96 0x010000000000000000000000 = some (.encode 0 0 0 0 0) :=
  ⟨⟨State.reset.present 0x020000000000000000000000, 0x020000000000000000000000, [], .build, by decide⟩, by decide⟩

theorem witness_NoCommandPresentedWaits : State.reset.pending = [] := by decide

theorem witness_IllegalOpcodeFaults :
    (State.reset.present 0).pending = [0] ∧ (State.reset.present 0).fault = false ∧
      (fieldOp 0x000000000000000000000000).toNat = 0 ∧ 6 ≤ (fieldOp 0x060000000000000000000000).toNat ∧
      6 ≤ (fieldOp 0xFF0000000000000000000000).toNat := by decide

theorem witness_EveryCommandRefusedWhileFaulted :
    stuck.fault = true ∧ (stuck.present 0).fault = true ∧ (stuck.present 0).pending = [0] := by decide

theorem witness_FaultEntryIsPrecise :
    ∃ (s t : State) (i : Instr), s.fault = false ∧ exec i s = .next t ∧ t.fault = true :=
  ⟨State.reset, State.reset.raise .order, .mkptr, rfl, rfl, rfl⟩

theorem witness_FaultIsNeverLeftByCommands : stuck.fault = true ∧ (stuck.present 0).fault = true := by decide

theorem witness_BlockResetLeavesConsumer : 1 ≤ 1 ∧ (loaded demo).consumer.dtr ≠ none := by decide

theorem witness_StepKeepsInvariant : ∃ s t : State, Inv hw s ∧ step s = .next t := ⟨loaded hw, loaded hw, loaded_inv, rfl⟩

theorem witness_BlockResetKeepsInvariant : ∃ s : State, Inv hw s ∧ s.loads ≠ [] :=
  ⟨loaded hw, loaded_inv, by simp [loaded]⟩

theorem witness_NoCommandIsStopped : ∃ s : State, Inv hw s := ⟨loaded hw, loaded_inv⟩

theorem witness_LifecycleIsMonotone :
    ∃ s t : State, step s = .next t ∧ s.ptrValid = true ∧ s.ptr ≠ none ∧ s.entry 0 ≠ none :=
  ⟨loaded hw, loaded hw, rfl, rfl, by simp [loaded, pointed],
    by simp [loaded, pointed, built, withTable, canonTable, State.entry, Sparse.get]⟩

theorem witness_LifecycleIsMonotone_fault : ∃ s t : State, step s = .next t ∧ s.fault = true := ⟨stuck, stuck, rfl, rfl⟩

theorem witness_OnlyLoadEventsReachConsumer :
    ∃ (s t : State) (i : Instr), exec i s = .next t ∧ t.loads ≠ s.loads :=
  ⟨pointed hw, _, .load, pointed_load, by simp⟩

theorem witness_CommandsNeverReadTheTable : ∃ (s t : State) (i : Instr), exec i s = .next t :=
  ⟨pointed hw, _, .load, pointed_load⟩

theorem witness_GoodRunEndsLoaded :
    ∃ (ws : List CommandWord) (k : Nat) (t : State),
      runSteps k { State.reset with pending := ws } = .next t ∧ GoodEnd t :=
  ⟨[0x050000000000000000000000], 1, _, rfl, rfl, rfl⟩

theorem witness_TableImageBytes :
    demo.Legal ∧ 4 < demo.nEntries ∧ 7 < 8 ∧ State.reset.entry 4 = none ∧ built.entry 4 ≠ none ∧
      ¬(demo.tableBase.toNat ≤ 0x00104FFF ∧ 0x00104FFF < demo.tableBase.toNat + 8 * demo.nEntries) ∧
      ¬(demo.ptrAddr.toNat ≤ 0x00104FFF ∧ 0x00104FFF < demo.ptrAddr.toNat + 6) ∧
      ¬(demo.tableBase.toNat ≤ 0x0010502E ∧ 0x0010502E < demo.tableBase.toNat + 8 * demo.nEntries) ∧
      ¬(demo.ptrAddr.toNat ≤ 0x0010502E ∧ 0x0010502E < demo.ptrAddr.toNat + 6) := by decide

theorem witness_PointerImageBytes :
    demo.Legal ∧ (pointed demo).ptr = some ⟨0x0027, 0x00105000⟩ ∧ State.reset.ptr = none ∧ 5 < 6 := by decide

theorem witness_MemoryListReadsAsImages : demo.Legal ∧ demoSix.Legal := by decide

/-- A read that ends at the last byte of the pointer record, and one of a single byte. -/
theorem witness_ReadsReturnTheBytes :
    ∃ g : Nat → Byte, (∀ k, k < 6 → imageByte demo (loaded demo) ((0x00105028 : Addr).toNat + k) = some (g k)) ∧
      (∀ k, k < 1 → imageByte demo (loaded demo) ((0x00105028 : Addr).toNat + k) = some (g k)) :=
  ⟨fun k => byteOf (pointerValue demo).packed k, by decide, by decide⟩

theorem witness_MixedWidthReadsOfEntry :
    demo.Legal ∧ 4 < demo.nEntries ∧ (loaded demo).entry 4 = some 0x00CFF2000000FFFF ∧
      (0x00105020 : Addr).toNat = entryAddr demo 4 := by decide

/-- The first byte of a read, and its last. -/
theorem witness_ReadOfUnwrittenByteFaults :
    imageByte demoSix (loaded demoSix) ((0x00105028 : Addr).toNat + 0) = none ∧
      imageByte demoSix (loaded demoSix) ((0x00105021 : Addr).toNat + 7) = none := by decide

theorem witness_LoaderFindsEventInMemory :
    ∃ (s t : State) (i : Instr) (e : LoadEvent), exec i s = .next t ∧ t.answer = some (.okWithLoad e) :=
  ⟨pointed hw, _, .load, _, pointed_load, rfl⟩

theorem witness_LoadEventSynchronisesConsumer :
    ∃ (s t : State) (e : LoadEvent), exec .init s = .next t ∧ t.answer = some (.okWithLoad e) :=
  ⟨State.reset, _, _, initCmd_ok (s := State.reset) (p := hw) rfl, rfl⟩

theorem witness_WriteAfterLoadIsLeftOpen :
    (loaded demo).fault = false ∧ (0 : BitVec 8).toNat < hw.nEntries ∧ (4 : BitVec 8).toNat < hw.nEntries ∧
      (loaded demo).consumer.dtr ≠ none := by decide

/-- An ENCODE after a load event that changes a byte, and a BUILD that changes none. -/
theorem witness_ConsumerViewOnlyGrowsBetweenLoads :
    (∃ (s t : State) (i : Instr) (a : Nat) (v : Option Byte),
        exec i s = .next t ∧ t.loads = s.loads ∧ s.consumer.dtr ≠ none ∧ v ∈ byteViews hw s a) ∧
      (∃ (s t : State) (i : Instr), exec i s = .next t ∧ t.loads = s.loads ∧ SameTable s t ∧ t.ptr = s.ptr) :=
  ⟨⟨loaded hw, _, .encode 0 1 1 1 1, entryAddr hw 0 + 0, some 0,
      encodeCmd_ok (s := loaded hw) (p := hw) (index := 0) rfl (by decide) 1 (1 : BitVec 32)
        (1 : BitVec 8) (1 : BitVec 8), rfl,
      loaded_dtr, by
      unfold byteViews
      rw [locate_entry (by decide) (by decide)]
      decide⟩,
    loaded hw, _, .build, buildCmd_ok (s := loaded hw) (p := hw) rfl, rfl,
    fun i => congrArg (Sparse.get · i) (show ((loaded hw).writeCanonical hw).table = canonTable by decide), rfl⟩

/-- A read of the first entry, and of the last byte of the pointer record. -/
theorem witness_NoConsumerReadFaultsAfterLoad :
    Inv hw (loaded hw) ∧ (loaded hw).loads ≠ [] ∧ (∀ k, k < 8 → locate hw (hw.tableBase.toNat + k) ≠ none) ∧
      (∃ a : Addr, a.toNat = hw.ptrAddr.toNat + 5 ∧ ∀ k, k < 1 → locate hw (a.toNat + k) ≠ none) := by
  refine ⟨loaded_inv, by simp [loaded], fun k hk => ?_, hw.ptrAddr + 5, ?_⟩
  · have := locate_entry (p := hw) (i := 0) (k := k) (by decide) hk
    simp only [entryAddr, selector, Nat.mul_zero, Nat.add_zero] at this
    simp [this]
  · have ha : (hw.ptrAddr + 5).toNat = hw.ptrAddr.toNat + 5 := by
      have := hw_legal.2.2.2.1
      rw [BitVec.toNat_add, show (5 : Addr).toNat = 5 from rfl]
      omega
    refine ⟨ha, fun k hk => ?_⟩
    rw [ha, Nat.add_assoc, locate_pointer hw_legal (by omega)]
    simp

theorem witness_AssembledLinesDecode :
    ¬ AsmLine.WellFormed (.encode 256 0 0 0 0) ∧ ¬ AsmLine.WellFormed (.nulld 256) ∧
      AsmLine.WellFormed (.encode 255 0xFFFFFFFF 0xFFFFFFFF 0xFF 0xFF) ∧ AsmLine.WellFormed (.flat 255 0xFF) := by decide

end Sys2Proof.Tests
end

section
/-! PROOFS. The order BUILD, MKPTR, LOAD (70_reset_and_hazards.md R144): when each command faults, and why INIT never does. -/

namespace Sys2Proof.Machine

variable {s : State} {p : Params}

/-! Each operand-less command of `exec` is the shared command at this hardware's values (R52). -/

theorem exec_build (s : State) : exec .build s = buildCmd hw s := rfl
theorem exec_mkptr (s : State) : exec .mkptr s = mkptrCmd hw s := rfl
theorem exec_load (s : State) : exec .load s = loadCmd hw s := rfl
theorem exec_init (s : State) : exec .init s = initCmd hw s := rfl

/-- R91, R92: after BUILD's phase update the table counts as populated, whatever the phase was. -/
theorem State.populate_phase_ne_uninit (s : State) : s.populate.phase ≠ .uninit := by
  by_cases h : s.phase = .uninit <;> simp [h]

/-- R101: the order check of MKPTR. -/
theorem mkptrCmd_faults_iff_uninit (hf : s.fault = false) :
    ∃ t, mkptrCmd p s = .next t ∧ (t.fault = true ↔ s.phase = .uninit) ∧
      (t.fault = true ↔ t.answer = some (.fault .order)) := by
  by_cases hp : s.phase = .uninit
  · exact ⟨_, mkptrCmd_order hf hp, by simp [hp], by simp⟩
  · exact ⟨_, mkptrCmd_ok hf hp, by simp [hf, hp], by simp [hf]⟩

/-- R102: the order check of LOAD. The premise on the pointer (R22 item 2) is what makes LOAD answer at all (log 13). -/
theorem loadCmd_faults_iff_out_of_order (hf : s.fault = false) (hptr : s.ptrValid = true → s.ptr ≠ none) :
    ∃ t, loadCmd p s = .next t ∧ (t.fault = true ↔ s.phase = .uninit ∨ s.ptrValid = false) ∧
      (t.fault = true ↔ t.answer = some (.fault .order)) ∧ (t.fault = true → t.loads = s.loads) := by
  by_cases ho : s.phase = .uninit ∨ s.ptrValid = false
  · exact ⟨_, loadCmd_order hf ho, by simp [ho], by simp, by simp⟩
  · obtain ⟨hp, hv⟩ := not_or.mp ho
    have hv : s.ptrValid = true := Bool.eq_true_of_not_eq_false hv
    obtain ⟨q, hq⟩ := Option.ne_none_iff_exists'.mp (hptr hv)
    exact ⟨_, loadCmd_ok hf hp hv hq, by simp [hf, hp, hv], by simp [hf], by simp [hf]⟩

/-- R106, D18: the three commands pass their checks one after the other and end in INIT's state. The load event overwrites
what sets them apart on the way: the phase, the outcome, and what the consumer may still see. -/
theorem build_mkptr_load_eq_init (hf : s.fault = false) :
    ∃ t u v, buildCmd p s = .next t ∧ mkptrCmd p t = .next u ∧ loadCmd p u = .next v ∧ initCmd p s = .next v ∧
      v.fault = false ∧ v.answer = some (.okWithLoad (loadEventOf p (pointerValue p))) := by
  have hpop := (s.writeCanonical p).populate_phase_ne_uninit
  exact ⟨_, _, _, buildCmd_ok hf, mkptrCmd_ok hf hpop, loadCmd_ok hf hpop rfl rfl, initCmd_ok hf, hf, rfl⟩

/-- Settles O23: MKPTR and LOAD by their order checks, INIT by its equality with the three commands in order. -/
theorem orderOfPopulationPointerLoadIsEnforced : Obligations.OrderOfPopulationPointerLoadIsEnforced := by
  unfold Obligations.OrderOfPopulationPointerLoadIsEnforced
  intro s hf hptr
  simp only [exec_build, exec_mkptr, exec_load, exec_init]
  exact ⟨mkptrCmd_faults_iff_uninit hf, loadCmd_faults_iff_out_of_order hf hptr.mp, build_mkptr_load_eq_init hf⟩

end Sys2Proof.Machine
end

section
/-! PROOFS. The operands of ENCODE (30_encoding.md R54): each is a slice of the command word, and of these slices the
command reads no more than `pack` keeps, so limit[31:20] and flags[3:0] have no effect. -/

namespace Sys2Proof

/-! Slices of a word as numbers, and slices two words share. -/

/-- A slice as a number: the word divided by the weight of its lowest bit, modulo its size. -/
theorem slice_toNat {w : Nat} (x : BitVec w) (a n : Nat) : (x.extractLsb' a n).toNat = x.toNat / 2 ^ a % 2 ^ n := by
  rw [BitVec.extractLsb'_toNat, Nat.shiftRight_eq_div_pow]

/-- Words that share a slice share every slice inside it. -/
theorem slice_eq_of_slice_eq {v w a m b n : Nat} {x : BitVec v} {y : BitVec w}
    (h : x.extractLsb' a m = y.extractLsb' a m) (hab : a ≤ b) (hbn : b + n ≤ a + m) :
    x.extractLsb' b n = y.extractLsb' b n := by
  obtain ⟨c, rfl⟩ := Nat.exists_eq_add_of_le hab
  have hc : c + n ≤ m := by omega
  rw [← slice_slice x hc, h, slice_slice y hc]

namespace Machine

variable {lw aw fw : Nat}

/-- R70, R74, R75: of the limit `pack` reads bits 19:0 alone, and of the flags bits 7:4 alone. -/
theorem pack_eq_of_slices_eq {limit limit' : BitVec lw} {flags flags' : BitVec fw}
    (hlimit : limit.extractLsb' 0 20 = limit'.extractLsb' 0 20)
    (hflags : flags.extractLsb' 4 4 = flags'.extractLsb' 4 4) (base : BitVec 32) (access : BitVec aw) :
    pack base limit access flags = pack base limit' access flags' := by
  have hlow : packLimitLow limit = packLimitLow limit' := slice_eq_of_slice_eq hlimit (by decide) (by decide)
  have hnibble : packLimitNibble limit = packLimitNibble limit' :=
    slice_eq_of_slice_eq hlimit (by decide) (by decide)
  have hgran : packGranularity limit flags = packGranularity limit' flags' :=
    congrArg₂ (· ++ ·) hflags hnibble
  rw [pack, pack, hlow, hgran]

/-- R80, R81: beyond the index, ENCODE reads its operands through `pack` alone. -/
theorem encodeCmd_eq_of_pack_eq {base base' : BitVec 32} {limit limit' : BitVec lw} {access access' : BitVec aw}
    {flags flags' : BitVec fw} (h : pack base limit access flags = pack base' limit' access' flags')
    (p : Params) (index : BitVec 8) (s : State) :
    encodeCmd p index base limit access flags s = encodeCmd p index base' limit' access' flags' s := by
  rw [encodeCmd, encodeCmd, h]

/-- R52, R54: an ENCODE word runs ENCODE on the word's fields. -/
theorem runWord_encode_op {cw : CommandWord} (h : fieldOp cw = 0x01) (s : State) :
    runWord cw s =
      encodeCmd hw (fieldIndex cw) (fieldBase cw) (fieldLimit cw) (fieldAccess cw) (fieldFlags cw) s := by
  rw [runWord, decode_encode_op h]
  rfl

/-- The step of a state whose host has a word to present (R23, R57). -/
theorem step_pending_cons (s : State) (cw : CommandWord) (rest : List CommandWord) :
    step { s with pending := cw :: rest } = runWord cw (s.accept rest) := rfl

/-- R54: ENCODE words that agree but for limit[31:20] (word bits 47:36) and flags[3:0] (word bits 3:0) run alike. -/
theorem runWord_eq_of_effective_bits_eq {cw cw' : CommandWord} (hop : fieldOp cw = 0x01)
    (hhigh : cw.extractLsb' 48 48 = cw'.extractLsb' 48 48) (hlow : cw.extractLsb' 4 32 = cw'.extractLsb' 4 32)
    (s : State) : runWord cw s = runWord cw' s := by
  have hop' : fieldOp cw = fieldOp cw' := slice_eq_of_slice_eq hhigh (by decide) (by decide)
  have hindex : fieldIndex cw = fieldIndex cw' := slice_eq_of_slice_eq hhigh (by decide) (by decide)
  have hbase : fieldBase cw = fieldBase cw' := slice_eq_of_slice_eq hhigh (by decide) (by decide)
  have haccess : fieldAccess cw = fieldAccess cw' := slice_eq_of_slice_eq hlow (by decide) (by decide)
  have hlimit : (fieldLimit cw).extractLsb' 0 20 = (fieldLimit cw').extractLsb' 0 20 := by
    rw [fieldLimit, fieldLimit, slice_slice cw (by decide), slice_slice cw' (by decide)]
    exact slice_eq_of_slice_eq hlow (by decide) (by decide)
  have hflags : (fieldFlags cw).extractLsb' 4 4 = (fieldFlags cw').extractLsb' 4 4 := by
    rw [fieldFlags, fieldFlags, slice_slice cw (by decide), slice_slice cw' (by decide)]
    exact slice_eq_of_slice_eq hlow (by decide) (by decide)
  rw [runWord_encode_op hop, runWord_encode_op (hop' ▸ hop), hindex, hbase, haccess]
  exact encodeCmd_eq_of_pack_eq (pack_eq_of_slices_eq hlimit hflags _ _) _ _ _

/-- Settles O2: the decoder takes the five fields as slices, and the words' effective bits decide the step. -/
theorem encodeOperandsAreWordFields : Obligations.EncodeOperandsAreWordFields := by
  unfold Obligations.EncodeOperandsAreWordFields
  refine ⟨fun cw hop => ?_, fun s cw cw' rest hop hhigh hlow => ?_⟩
  · have hflags : (fieldFlags cw).toNat = cw.toNat % 2 ^ 8 := by
      rw [fieldFlags, slice_toNat, Nat.pow_zero, Nat.div_one]
    exact ⟨fieldIndex cw, fieldBase cw, fieldLimit cw, fieldAccess cw, fieldFlags cw, decode_encode_op hop,
      slice_toNat cw 80 8, slice_toNat cw 48 32, slice_toNat cw 16 32, slice_toNat cw 8 8, hflags⟩
  · rw [step_pending_cons, step_pending_cons]
    exact runWord_eq_of_effective_bits_eq hop hhigh hlow _

end Machine
end Sys2Proof
end

section
/-! PROOFS. What `pack` keeps of its operands (40_pack_encode.md R70 to R78): the base, limit[19:0], access[7:0] and
flags[7:4], for every port width, so masking the other bits changes neither the descriptor nor ENCODE. -/

namespace Sys2Proof

/-- A mask does not change a slice on which it is all ones. -/
theorem slice_and_mask {w a n : Nat} (x : BitVec w) {m : BitVec w} (h : m.extractLsb' a n = BitVec.allOnes n) :
    (x &&& m).extractLsb' a n = x.extractLsb' a n := by
  rw [BitVec.extractLsb'_and, h, BitVec.and_allOnes]

namespace Machine

variable {lw aw fw lw' aw' fw' : Nat}

/-! Reading a packed descriptor back (R79 law 4), beyond the byte fields of `Laws/Bits`. -/

section
variable (base : BitVec 32) (limit : BitVec lw) (access : BitVec aw) (flags : BitVec fw)

theorem descLimitNibble_pack : descLimitNibble (pack base limit access flags) = packLimitNibble limit := by
  rw [descLimitNibble_eq, descGranularity_pack, packGranularity, slice_append_low _ _ (by decide)]
  exact slice_self _

theorem descFlagsNibble_pack : descFlagsNibble (pack base limit access flags) = packFlagsNibble flags := by
  rw [descFlagsNibble_eq, descGranularity_pack, packGranularity, slice_append_high _ _ _ (by decide)]
  exact slice_self _

theorem descBase_pack : descBase (pack base limit access flags) = base := by
  rw [descBase, descBaseHigh_pack, descBaseMid_pack, descBaseLow_pack, packBaseHigh, packBaseMid, packBaseLow,
    slice_concat base 16 8 8, slice_concat base 0 16 16]
  exact slice_self base

theorem descLimit_pack : descLimit (pack base limit access flags) = limit.extractLsb' 0 20 := by
  rw [descLimit, descLimitNibble_pack, descLimitLow_pack]
  exact slice_concat limit 0 4 16

end

/-- R78: two operand tuples, of any port widths, pack alike exactly when the bits `pack` keeps agree. -/
theorem pack_eq_pack_iff {base base' : BitVec 32} {limit : BitVec lw} {limit' : BitVec lw'} {access : BitVec aw}
    {access' : BitVec aw'} {flags : BitVec fw} {flags' : BitVec fw'} :
    pack base limit access flags = pack base' limit' access' flags' ↔
      base = base' ∧ limit.extractLsb' 0 20 = limit'.extractLsb' 0 20 ∧ packAccess access = packAccess access' ∧
        packFlagsNibble flags = packFlagsNibble flags' := by
  constructor
  · intro h
    have hbase := congrArg descBase h
    have hlimit := congrArg descLimit h
    have haccess := congrArg descAccess h
    have hflags := congrArg descFlagsNibble h
    simp only [descBase_pack, descLimit_pack, descAccess_pack, descFlagsNibble_pack] at hbase hlimit haccess hflags
    exact ⟨hbase, hlimit, haccess, hflags⟩
  · rintro ⟨rfl, hlimit, haccess, hflags⟩
    have hlow : packLimitLow limit = packLimitLow limit' := slice_eq_of_slice_eq hlimit (by decide) (by decide)
    have hnibble : packLimitNibble limit = packLimitNibble limit' :=
      slice_eq_of_slice_eq hlimit (by decide) (by decide)
    rw [pack, pack, packGranularity, packGranularity, hlow, hnibble, haccess, hflags]

/-- R78: `pack` of the operands masked to their field widths. -/
theorem pack_masked (base : BitVec 32) (limit : BitVec lw) (access : BitVec aw) (flags : BitVec fw) :
    pack base (limit.extractLsb' 0 20) (access.extractLsb' 0 8) (flags.extractLsb' 4 4 ++ (0 : BitVec 4)) =
      pack base limit access flags := by
  have hflags : packFlagsNibble (flags.extractLsb' 4 4 ++ (0 : BitVec 4)) = packFlagsNibble flags :=
    (slice_append_high _ _ _ (by decide)).trans (slice_self _)
  exact pack_eq_pack_iff.mpr ⟨rfl, slice_self _, slice_self _, hflags⟩

/-- R78, R128: ENCODE of the operands masked to their field widths. -/
theorem encodeCmd_masked (p : Params) (index : BitVec 8) (base : BitVec 32) (limit : BitVec lw) (access : BitVec aw)
    (flags : BitVec fw) (s : State) :
    encodeCmd p index base (limit.extractLsb' 0 20) (access.extractLsb' 0 8)
        (flags.extractLsb' 4 4 ++ (0 : BitVec 4)) s =
      encodeCmd p index base limit access flags s := by
  rw [encodeCmd, encodeCmd, pack_masked]

/-- R52: ENCODE of `exec` is the shared command at this hardware's values. -/
theorem exec_encode (index : BitVec 8) (base limit : BitVec 32) (access flags : BitVec 8) (s : State) :
    exec (.encode index base limit access flags) s = encodeCmd hw index base limit access flags s := rfl

/-- Settles O7: each slice of the descriptor is a field of the descriptor, which reads back as that field of `pack`. -/
theorem packedFieldsAreOperandSlices : Obligations.PackedFieldsAreOperandSlices := by
  unfold Obligations.PackedFieldsAreOperandSlices
  intro lw aw fw base limit access flags
  exact ⟨descLimitLow_pack base limit access flags, descBaseLow_pack base limit access flags,
    descBaseMid_pack base limit access flags, descAccess_pack base limit access flags,
    descLimitNibble_pack base limit access flags, descBaseHigh_pack base limit access flags,
    fun _ hlimit => pack_eq_of_slices_eq hlimit rfl base access⟩

/-- Settles O9: masking keeps every bit that `pack` keeps, and ENCODE reads its operands through `pack`. -/
theorem excessOperandBitsAreMasked : Obligations.ExcessOperandBitsAreMasked := by
  unfold Obligations.ExcessOperandBitsAreMasked
  refine ⟨?masked, ?lossless, ?encode, ?exec⟩
  case masked =>
    exact fun _ _ _ base limit access flags => (pack_masked base limit access flags).symm
  case lossless =>
    exact fun _ _ _ _ _ _ _ _ _ _ _ h => pack_eq_pack_iff.mp h
  case encode =>
    exact fun _ _ _ p index base limit access flags s => (encodeCmd_masked p index base limit access flags s).symm
  case exec =>
    intro index base limit access flags s
    have hlimit : (limit &&& 0xFFFFF).extractLsb' 0 20 = limit.extractLsb' 0 20 := slice_and_mask limit (by decide)
    have hflags : (flags &&& 0xF0).extractLsb' 4 4 = flags.extractLsb' 4 4 := slice_and_mask flags (by decide)
    rw [exec_encode, exec_encode]
    exact encodeCmd_eq_of_pack_eq (pack_eq_of_slices_eq hlimit.symm hflags.symm base access) hw index s

end Machine
end Sys2Proof
end

section
/-! PROOFS. The decoder, the canonical encoder and the byte form (30_encoding.md sections 1, 2, 5 and 6): the `op` field
decides the command, an ENCODE word is the concatenation of its fields, and a word is the concatenation of its bytes. -/

namespace Sys2Proof

variable {cw cw' : CommandWord} {i : Instr}

/-! The `op` field and the command (R52). -/

/-- The canonical word of every command carries the command's opcode. -/
theorem fieldOp_encode (i : Instr) : fieldOp (encode i) = i.opcode := by
  cases i with
  | encode index base limit access flags => exact Laws.OpcodeField.encode index base limit access flags
  | build => exact Laws.OpcodeField.build
  | mkptr => exact Laws.OpcodeField.mkptr
  | load => exact Laws.OpcodeField.load
  | init => exact Laws.OpcodeField.init

/-- What decodes to a command carries the command's opcode. -/
theorem fieldOp_of_decode (h : decode cw = .ok i) : fieldOp cw = i.opcode := by
  rcases decode_cases cw with ⟨hop, hd⟩ | ⟨hop, hd⟩ | ⟨hop, hd⟩ | ⟨hop, hd⟩ | ⟨hop, hd⟩ | hd <;> rw [hd] at h
  case inr.inr.inr.inr.inr => cases h
  all_goals
    cases h
    exact hop

/-- What carries a command's opcode decodes to a command of that mnemonic, whatever the other bits. -/
theorem decode_of_fieldOp (h : fieldOp cw = i.opcode) : ∃ j, decode cw = .ok j ∧ j.mnemonic = i.mnemonic := by
  cases i with
  | encode => exact ⟨_, decode_encode_op h, rfl⟩
  | build => exact ⟨_, decode_build_op h, rfl⟩
  | mkptr => exact ⟨_, decode_mkptr_op h, rfl⟩
  | load => exact ⟨_, decode_load_op h, rfl⟩
  | init => exact ⟨_, decode_init_op h, rfl⟩

/-! A word as its `op` field and the 88 bits below it (R50). -/

theorem word_eq_op_append (cw : CommandWord) : (fieldOp cw ++ cw.extractLsb' 0 88 : BitVec (8 + 88)) = cw :=
  (slice_concat cw 0 8 88).trans (slice_self cw)

/-- The row of the opcode map a command belongs to: its opcode as the pattern, the `op` field as the mask. -/
def Instr.row (i : Instr) : OpcodeRow :=
  { mnemonic := i.mnemonic
    pattern := (i.opcode ++ (0 : BitVec 88) : BitVec (8 + 88))
    mask := ((0xFF : BitVec 8) ++ (0 : BitVec 88) : BitVec (8 + 88)) }

/-- The opcode map holds the rows of the five commands and no others. -/
theorem mem_opcodeRows {r : OpcodeRow} (h : r ∈ opcodeRows) : ∃ i : Instr, r = i.row := by
  simp only [opcodeRows, List.mem_cons, List.not_mem_nil, or_false] at h
  rcases h with rfl | rfl | rfl | rfl | rfl
  · exact ⟨.encode 0 0 0 0 0, rfl⟩
  · exact ⟨.build, rfl⟩
  · exact ⟨.mkptr, rfl⟩
  · exact ⟨.load, rfl⟩
  · exact ⟨.init, rfl⟩

theorem row_mem_opcodeRows (i : Instr) : i.row ∈ opcodeRows := by
  cases i with
  | encode => exact (by decide : (Instr.encode 0 0 0 0 0).row ∈ opcodeRows)
  | build => decide
  | mkptr => decide
  | load => decide
  | init => decide

/-- No two rows of the map share a mnemonic, so a mnemonic has one opcode. -/
theorem opcode_eq_of_mnemonic_eq {j : Instr} (h : i.mnemonic = j.mnemonic) : i.opcode = j.opcode := by
  have rows_distinct : ∀ r ∈ opcodeRows, ∀ r' ∈ opcodeRows, r.mnemonic = r'.mnemonic → r.pattern = r'.pattern := by
    decide
  have hpattern := rows_distinct _ (row_mem_opcodeRows i) _ (row_mem_opcodeRows j) h
  exact (fieldOp_of_op i.opcode 0).symm.trans ((congrArg fieldOp hpattern).trans (fieldOp_of_op j.opcode 0))

/-- The `op` field decides the mnemonic and is decided by it. -/
theorem exists_decode_mnemonic_iff :
    (∃ j, decode cw = .ok j ∧ j.mnemonic = i.mnemonic) ↔ fieldOp cw = i.opcode := by
  refine ⟨?_, decode_of_fieldOp⟩
  rintro ⟨j, hj, hm⟩
  rw [fieldOp_of_decode hj, opcode_eq_of_mnemonic_eq hm]

/-- Masking a word with `0xFF` over the `op` field compares that field alone. -/
theorem hits_row_iff (cw : CommandWord) (i : Instr) : i.row.hits cw = true ↔ fieldOp cw = i.opcode := by
  have hmask : cw &&& i.row.mask = (fieldOp cw ++ (0 : BitVec 88) : BitVec (8 + 88)) := by
    conv_lhs => rw [← word_eq_op_append cw]
    rw [Instr.row, BitVec.and_append, show (0xFF : BitVec 8) = BitVec.allOnes 8 from rfl, BitVec.and_allOnes]
    exact congrArg (fieldOp cw ++ ·) BitVec.and_zero
  have hpattern : i.row.pattern = (i.opcode ++ (0 : BitVec 88) : BitVec (8 + 88)) := rfl
  rw [OpcodeRow.hits, hmask, hpattern, beq_iff_eq]
  refine ⟨fun h => ?_, fun h => by rw [h]⟩
  rw [← fieldOp_of_op (fieldOp cw) 0, h, fieldOp_of_op]

/-! The round trip (R58). -/

/-- An ENCODE word is the concatenation of its fields. -/
theorem word_eq_fields (cw : CommandWord) :
    (fieldOp cw ++ fieldIndex cw ++ fieldBase cw ++ fieldLimit cw ++ fieldAccess cw ++ fieldFlags cw :
      BitVec (8 + 8 + 32 + 32 + 8 + 8)) = cw := by
  rw [fieldOp, fieldIndex, fieldBase, fieldLimit, fieldAccess, fieldFlags, slice_concat cw 80 8 8,
    slice_concat cw 48 16 32, slice_concat cw 16 48 32, slice_concat cw 8 80 8, slice_concat cw 0 88 8]
  exact slice_self cw

theorem decode_encode (i : Instr) : decode (encode i) = .ok i := by
  cases i with
  | encode index base limit access flags =>
    obtain ⟨-, hindex, hbase, hlimit, haccess, hflags⟩ := fields_of_concat index base limit access flags 0x01
    rw [decode_encode_op (fieldOp_encode _)]
    exact congrArg Except.ok (Instr.encode.injEq .. ▸ ⟨hindex, hbase, hlimit, haccess, hflags⟩)
  | build => exact decode_build_op (fieldOp_encode _)
  | mkptr => exact decode_mkptr_op (fieldOp_encode _)
  | load => exact decode_load_op (fieldOp_encode _)
  | init => exact decode_init_op (fieldOp_encode _)

/-- The canonical encoder gives back every ENCODE word. -/
theorem encode_of_decode_encode {index : BitVec 8} {base limit : BitVec 32} {access flags : BitVec 8}
    (h : decode cw = .ok (.encode index base limit access flags)) :
    encode (.encode index base limit access flags) = cw := by
  have hop : fieldOp cw = 0x01 := fieldOp_of_decode h
  rw [decode_encode_op hop] at h
  cases h
  have hw := word_eq_fields cw
  rwa [hop] at hw

/-- The canonical encoder gives back every word with nothing below the opcode. -/
theorem encode_of_decode_of_low_zero (h : decode cw = .ok i) (hlow : cw.extractLsb' 0 88 = 0) : encode i = cw := by
  have hw := word_eq_op_append cw
  rw [fieldOp_of_decode h, hlow] at hw
  cases i with
  | encode => exact encode_of_decode_encode h
  | build => exact hw
  | mkptr => exact hw
  | load => exact hw
  | init => exact hw

/-! The byte form (R50). -/

/-- Shifting in the next byte of a word, most significant first. -/
theorem shift_in_byte (cw : CommandWord) {k : Nat} (hk : k < 12) :
    ((cw >>> (8 * (12 - k))) <<< 8 ||| (cw.extractLsb' (8 * (11 - k)) 8).setWidth 96) = cw >>> (8 * (11 - k)) := by
  refine BitVec.eq_of_getLsbD_eq fun j hj => ?_
  simp only [BitVec.getLsbD_or, BitVec.getLsbD_shiftLeft, BitVec.getLsbD_ushiftRight, BitVec.getLsbD_setWidth,
    BitVec.getLsbD_extractLsb', hj, decide_true, Bool.true_and]
  by_cases h8 : j < 8
  · simp [h8]
  · simp [h8, show 8 * (12 - k) + (j - 8) = 8 * (11 - k) + j by omega]

/-- The first `k` bytes of a word are its upper `8k` bits. -/
theorem wordOfBytes_take (cw : CommandWord) {k : Nat} (hk : k ≤ 12) :
    wordOfBytes ((List.range k).map fun k => cw.extractLsb' (8 * (11 - k)) 8) = cw >>> (8 * (12 - k)) := by
  induction k with
  | zero =>
    refine BitVec.eq_of_getLsbD_eq fun j hj => ?_
    simp [wordOfBytes]
  | succ k ih =>
    have ih := ih (by omega)
    rw [List.range_succ, List.map_append, wordOfBytes, List.foldl_append]
    rw [wordOfBytes] at ih
    rw [ih]
    simpa using shift_in_byte cw (by omega)

theorem length_bytesOfWord (cw : CommandWord) : (bytesOfWord cw).length = 12 := by simp [bytesOfWord]

theorem wordOfBytes_bytesOfWord (cw : CommandWord) : wordOfBytes (bytesOfWord cw) = cw :=
  (wordOfBytes_take cw (Nat.le_refl 12)).trans (BitVec.ushiftRight_zero cw)

theorem decodeBytes_bytesOfWord (cw : CommandWord) : decodeBytes (bytesOfWord cw) = decode cw := by
  rw [decodeBytes, if_pos (length_bytesOfWord cw), wordOfBytes_bytesOfWord]

/-! The obligations. -/

/-- Settles O3: a word is the concatenation of the fields the decoder reads, and the encoder concatenates them. -/
theorem decodeEncodeRoundTrip : Obligations.DecodeEncodeRoundTrip := by
  unfold Obligations.DecodeEncodeRoundTrip
  exact ⟨fun i _ => decode_encode i, fun _ _ _ _ _ _ h => encode_of_decode_encode h,
    fun _ _ h hlow => encode_of_decode_of_low_zero h hlow⟩

/-- Settles O4: a row's mask compares the `op` field alone, and the `op` field decides the mnemonic. -/
theorem opcodeMapSelectsCommand : Obligations.OpcodeMapSelectsCommand := by
  unfold Obligations.OpcodeMapSelectsCommand
  refine ⟨fun cw r hr => ?_, fun cw cw' i hop h => ?_, fun _ _ => fieldOp_of_decode, fun _ _ _ _ _ => rfl, rfl, rfl,
    rfl, rfl⟩
  · obtain ⟨i, rfl⟩ := mem_opcodeRows hr
    exact (hits_row_iff cw i).trans exists_decode_mnemonic_iff.symm
  · exact decode_of_fieldOp (hop.symm.trans (fieldOp_of_decode h))

/-- Settles O5: the decoder reads the opcode alone, and the encoder appends 88 zero bits. -/
theorem operandlessFieldsIgnored : Obligations.OperandlessFieldsIgnored := by
  unfold Obligations.OperandlessFieldsIgnored
  refine ⟨fun _ => decode_build_op, fun _ => decode_mkptr_op, fun _ => decode_load_op, fun _ => decode_init_op,
    fun i hi => ?_⟩
  have hlow (op : BitVec 8) : (op ++ (0 : BitVec 88)).extractLsb' 0 88 = 0 :=
    (slice_append_low op 0 (by decide)).trans (slice_self 0)
  rcases hi with rfl | rfl | rfl | rfl <;> exact hlow _

/-- Settles O6: shifting the twelve bytes in one after the other gives the word back. -/
theorem byteFormOfCommandWords : Obligations.ByteFormOfCommandWords := by
  unfold Obligations.ByteFormOfCommandWords
  refine ⟨fun cw => ⟨length_bytesOfWord cw, rfl, rfl, wordOfBytes_bytesOfWord cw, decodeBytes_bytesOfWord cw⟩,
    fun bs hbs => ?_⟩
  rw [decodeBytes, if_neg hbs]

/-- Settles O1: the decoder evaluated on the listed words. -/
theorem specWordsDecodeAsListed : Obligations.SpecWordsDecodeAsListed := by
  unfold Obligations.SpecWordsDecodeAsListed
  decide

end Sys2Proof
end

section
/-! PROOFS. The assembler (30_encoding.md section 7): a line is refused exactly when it is ill-formed, and the word of any
other line is the canonical word of its command. -/

namespace Sys2Proof.Machine

/-- R59: the assembler's check is well-formedness. -/
theorem wellFormed_iff (l : AsmLine) : l.wellFormed = true ↔ l.WellFormed := by
  cases l <;> simp [AsmLine.wellFormed]

theorem assemble_ill_formed {l : AsmLine} (h : ¬ l.WellFormed) : assemble l = .error .operandTooWide := by
  rw [assemble, if_neg (mt (wellFormed_iff l).mp h)]

theorem assemble_well_formed {l : AsmLine} (h : l.WellFormed) : assemble l = .ok (encode (lineInstr l)) := by
  rw [assemble, if_pos ((wellFormed_iff l).mpr h)]

/-- Settles O57: the word of a line is the canonical word of its command, which decodes to it (R58). -/
theorem assembledLinesDecode : Obligations.AssembledLinesDecode := by
  unfold Obligations.AssembledLinesDecode
  refine ⟨fun _ => assemble_ill_formed, fun l hl => ⟨_, _, assemble_well_formed hl, decode_encode _, ?_⟩⟩
  cases l with
  | encode index base limit access flags =>
    obtain ⟨hindex, hbase, hlimit, haccess, hflags⟩ := hl
    exact ⟨_, _, _, _, _, rfl, Nat.mod_eq_of_lt (Nat.lt_succ_of_le hindex), Nat.mod_eq_of_lt (Nat.lt_succ_of_le hbase),
      Nat.mod_eq_of_lt (Nat.lt_succ_of_le hlimit), Nat.mod_eq_of_lt (Nat.lt_succ_of_le haccess),
      Nat.mod_eq_of_lt (Nat.lt_succ_of_le hflags)⟩
  | build => rfl
  | mkptr => rfl
  | load => rfl
  | init => rfl
  | nulld index => exact ⟨_, rfl, Nat.mod_eq_of_lt (Nat.lt_succ_of_le hl)⟩
  | flat index access =>
    obtain ⟨hindex, haccess⟩ := hl
    exact ⟨_, _, rfl, Nat.mod_eq_of_lt (Nat.lt_succ_of_le hindex), Nat.mod_eq_of_lt (Nat.lt_succ_of_le haccess)⟩

end Sys2Proof.Machine
end

section
/-! PROOFS. The invariant (10_state.md section 5): every named update of the state keeps it under the condition that update
needs, so every move of the block keeps it, and with it every step, every run and a block reset. -/

namespace Sys2Proof.Machine

variable {p : Params} {s t : State} {c : Consumer}

/-! The consumer's data by themselves (R44, R105): the part of `ConsumerOk` that no load event conditions. -/

/-- The old values are in canonical form and in range, there are none before a load event, and what is installed is the
pointer. -/
structure Consumer.Ok (p : Params) (c : Consumer) : Prop where
  old_rising : Sparse.WF c.oldEntries
  old_inRange : ∀ e ∈ c.oldEntries, e.1 < p.nEntries
  before_load : c.dtr = none → c.oldEntries = [] ∧ c.oldPtrs = []
  installed_pointer : ∀ q, c.dtr = some q → q = pointerValue p

/-- Where nothing changes, or before any load event, there is nothing to note (R145). -/
theorem Consumer.noteEntry_of_same {old new : Option Descriptor} (h : c.dtr = none ∨ old = new) (i : Nat) :
    c.noteEntry i old new = c := if_pos h

/-- After a load event a change stores the old value under the entry. -/
theorem Consumer.noteEntry_of_change {old new : Option Descriptor} (h : ¬(c.dtr = none ∨ old = new)) (i : Nat) :
    c.noteEntry i old new = { c with oldEntries := Sparse.set c.oldEntries i (addOnce (c.oldOf i) old) } := if_neg h

theorem Consumer.noteEntry_cases (c : Consumer) (i : Nat) (old new : Option Descriptor) :
    c.noteEntry i old new = c ∨
      c.dtr ≠ none ∧ c.noteEntry i old new =
        { c with oldEntries := Sparse.set c.oldEntries i (addOnce (c.oldOf i) old) } := by
  by_cases h : c.dtr = none ∨ old = new
  · exact .inl (Consumer.noteEntry_of_same h i)
  · exact .inr ⟨fun hd => h (.inl hd), Consumer.noteEntry_of_change h i⟩

theorem Consumer.notePtr_cases (c : Consumer) (old new : Option TablePointer) :
    c.notePtr old new = c ∨ c.dtr ≠ none ∧ c.notePtr old new = { c with oldPtrs := addOnce c.oldPtrs old } := by
  unfold Consumer.notePtr
  split
  · exact .inl rfl
  · next h => exact .inr ⟨fun hd => h (.inl hd), rfl⟩

theorem Consumer.Ok.noteEntry (h : c.Ok p) {i : Nat} (hi : i < p.nEntries) (old new : Option Descriptor) :
    (c.noteEntry i old new).Ok p := by
  rcases c.noteEntry_cases i old new with hc | ⟨hd, hc⟩ <;> rw [hc]
  · exact h
  · refine ⟨Sparse.wf_set h.old_rising _ _, fun e he => ?_, fun hn => absurd hn hd, h.installed_pointer⟩
    rcases Sparse.mem_set he with rfl | he
    · exact hi
    · exact h.old_inRange e he

theorem Consumer.Ok.notePtr (h : c.Ok p) (old new : Option TablePointer) : (c.notePtr old new).Ok p := by
  rcases c.notePtr_cases old new with hc | ⟨hd, hc⟩ <;> rw [hc]
  · exact h
  · exact ⟨h.old_rising, h.old_inRange, fun hn => absurd hn hd, h.installed_pointer⟩

/-- R35: an entry that was written leaves no unwritten value behind when it is noted. -/
theorem Consumer.none_notMem_noteEntry {i : Nat} {old : Option Descriptor} (new : Option Descriptor)
    (h : ∀ e ∈ c.oldEntries, e.1 < 5 → none ∉ e.2) (hold : i < 5 → old ≠ none) :
    ∀ e ∈ (c.noteEntry i old new).oldEntries, e.1 < 5 → none ∉ e.2 := by
  rcases c.noteEntry_cases i old new with hc | ⟨-, hc⟩ <;> rw [hc]
  · exact h
  · intro e he h5 hmem
    rcases Sparse.mem_set he with rfl | he
    · rcases (mem_addOnce _ _ _).mp hmem with hmem | hmem
      · cases hg : Sparse.get c.oldEntries i with
        | none => simp [Consumer.oldOf, hg] at hmem
        | some xs => exact h _ (Sparse.mem_of_get hg) h5 (by simpa [Consumer.oldOf, hg] using hmem)
      · exact hold h5 hmem.symm
    · exact h e he h5 hmem

theorem ConsumerOk.consumer (h : ConsumerOk p s) : s.consumer.Ok p :=
  ⟨h.old_rising, h.old_inRange, h.before_load, h.installed_pointer⟩

/-- What a state's environment data need beyond the consumer's own: the two conditions after a load event. -/
theorem ConsumerOk.of_consumer (hc : s.consumer.Ok p) (hload : s.loads ≠ [] → s.consumer.dtr ≠ none)
    (hold : s.loads ≠ [] →
      (∀ e ∈ s.consumer.oldEntries, e.1 < 5 → none ∉ e.2) ∧ none ∉ s.consumer.oldPtrs) : ConsumerOk p s :=
  ⟨hc.old_rising, hc.old_inRange, hc.before_load, hc.installed_pointer, hload, hold⟩

/-! Updates that touch no part of the invariant. -/

theorem Inv.accept (h : Inv p s) (rest : List CommandWord) : Inv p (s.accept rest) :=
  ⟨{ h.storage with }, { h.lifecycle with }, { h.environment with }⟩

theorem Inv.answerWith (h : Inv p s) (a : Answer) : Inv p (s.answerWith a) :=
  ⟨{ h.storage with }, { h.lifecycle with }, { h.environment with }⟩

/-! What the invariant says of states a command meets. -/

theorem Inv.ptr_ne_none (h : Inv p s) (hv : s.ptrValid = true) : s.ptr ≠ none := h.lifecycle.valid_iff_written.mp hv

theorem Inv.after_load (h : Inv p s) (hl : s.loads ≠ []) :
    s.phase ≠ .uninit ∧ s.ptr ≠ none ∧ ∀ i, i < 5 → s.entry i ≠ none := by
  have hphase : s.phase = .installed := h.lifecycle.loaded_installed hl
  have hne : s.phase ≠ .uninit := by simp [hphase]
  exact ⟨hne, h.ptr_ne_none (h.lifecycle.installed_loaded hphase).1, h.lifecycle.populated_written hne⟩

/-! Every other named update. -/

/-- R124: raising a fault. -/
theorem Inv.raise (h : Inv p s) (c : FaultCause) : Inv p (s.raise c) := by
  refine ⟨{ h.storage with }, { h.lifecycle with code_when_clear := ?_, code_when_set := ?_ }, { h.environment with }⟩
  · simp
  · cases c <;> simp [FaultCause.code]

/-- A written entry stays written under entry writes. -/
theorem State.writeEntry_entry_ne_none {i j : Nat} {d : Descriptor} (h : s.entry j ≠ none) :
    (s.writeEntry i d).entry j ≠ none := by
  rw [State.entry_writeEntry]
  split
  · simp
  · exact h

theorem Inv.writeEntry (h : Inv p s) {i : Nat} (hi : i < p.nEntries) (d : Descriptor) : Inv p (s.writeEntry i d) := by
  refine ⟨⟨Sparse.wf_set h.storage.table_rising _ _, fun e he => ?inRange⟩,
    { h.lifecycle with populated_written := fun hp j hj => ?written }, ?environment⟩
  case inRange =>
    rcases Sparse.mem_set he with rfl | he
    · exact hi
    · exact h.storage.table_inRange e he
  case written => exact State.writeEntry_entry_ne_none (h.lifecycle.populated_written hp j hj)
  case environment =>
    refine .of_consumer (h.environment.consumer.noteEntry hi _ _) (fun hl => ?_) (fun hl => ?_)
    · simpa using h.environment.after_load hl
    · obtain ⟨hentries, hptrs⟩ := h.environment.old_written hl
      obtain ⟨-, -, hwritten⟩ := h.after_load hl
      exact ⟨Consumer.none_notMem_noteEntry _ hentries (hwritten i), by simpa using hptrs⟩

/-- R91: what every write of a canonical entry keeps, the Table Builder's writes keep. -/
theorem State.writeCanonical_induct {P : State → Prop}
    (hP : ∀ s e, e ∈ canonEntries p → P s → P (s.writeEntry e.1 e.2)) (hs : P s) : P (s.writeCanonical p) :=
  List.foldlRecOn (motive := P) _ _ hs fun t ht e he => hP t e he ht

/-- The Table Builder lists each of the entries 0 to 4 once (R91). -/
theorem get_of_mem_canonEntries {e : Nat × Descriptor} (h : e ∈ canonEntries p) :
    e.1 < 5 ∧ Sparse.get (canonEntries p) e.1 = some e.2 := by
  simp only [canonEntries, List.mem_cons, List.not_mem_nil, or_false] at h
  rcases h with rfl | rfl | rfl | rfl | rfl <;> exact ⟨by simp, rfl⟩

/-- The same of what every write of one of the entries 0 to 4 keeps, whatever is written. -/
theorem State.writeCanonical_keeps {P : State → Prop} (hP : ∀ s i d, i < 5 → P s → P (s.writeEntry i d)) (hs : P s) :
    P (s.writeCanonical p) :=
  State.writeCanonical_induct (fun t e he => hP t e.1 e.2 (get_of_mem_canonEntries he).1) hs

theorem Inv.writeCanonical (h : Inv p s) (hp : 5 ≤ p.nEntries) : Inv p (s.writeCanonical p) :=
  State.writeCanonical_keeps (fun _ _ d hi ht => ht.writeEntry (Nat.lt_of_lt_of_le hi hp) d) h

/-- R92: the phase update needs the five entries written. -/
theorem Inv.populate (h : Inv p s) (hwritten : ∀ i, i < 5 → s.entry i ≠ none) : Inv p s.populate := by
  refine ⟨{ h.storage with },
    { h.lifecycle with
      valid_populated := fun _ => s.populate_phase_ne_uninit
      installed_loaded := fun hi => h.lifecycle.installed_loaded ?_
      populated_written := fun _ => hwritten
      loaded_installed := fun hl => ?_ }, { h.environment with }⟩
  · rw [State.populate_phase] at hi
    split at hi
    · cases hi
    · exact hi
  · have hphase := h.lifecycle.loaded_installed hl
    simp [hphase]

/-- R100: the pointer write needs a populated table. -/
theorem Inv.writePointer (h : Inv p s) (hp : s.phase ≠ .uninit) : Inv p (s.writePointer (pointerValue p)) := by
  refine ⟨{ h.storage with },
    { h.lifecycle with
      valid_iff_written := by simp
      pointer_correct := fun q hq => (Option.some.inj hq).symm
      valid_populated := fun _ => hp
      installed_loaded := fun hi => ⟨rfl, (h.lifecycle.installed_loaded hi).2⟩ }, ?_⟩
  refine .of_consumer (h.environment.consumer.notePtr _ _) (fun hl => ?_) (fun hl => ?_)
  · simpa using h.environment.after_load hl
  · obtain ⟨hentries, hptrs⟩ := h.environment.old_written hl
    obtain ⟨-, hptr, -⟩ := h.after_load hl
    refine ⟨by simpa using hentries, fun hmem => ?_⟩
    rcases (Consumer.mem_oldPtrs_notePtr _ _ _ _).mp hmem with hmem | ⟨hnone, -, -⟩
    · exact hptrs hmem
    · exact hptr hnone.symm

/-- R103, R104: the load event needs the table populated and the pointer assembled. -/
theorem Inv.emitLoad (h : Inv p s) (hp : s.phase ≠ .uninit) (hv : s.ptrValid = true) :
    Inv p (s.emitLoad p (pointerValue p)) := by
  refine ⟨{ h.storage with },
    { h.lifecycle with
      valid_populated := fun _ => by simp
      installed_loaded := fun _ => ⟨hv, by simp⟩
      populated_written := fun _ => h.lifecycle.populated_written hp
      loaded_installed := fun _ => rfl
      events_correct := fun e he => ?_ }, ?_⟩
  · rcases List.mem_append.mp he with he | he
    · exact h.lifecycle.events_correct e he
    · exact List.mem_singleton.mp he
  · exact .of_consumer ⟨List.Pairwise.nil, by simp [Consumer.install], by simp, by simp⟩ (by simp)
      (by simp [Consumer.install])

/-! Moves, steps, runs. -/

/-- The state BUILD ends in. -/
theorem Inv.build (h : Inv p s) (hp : 5 ≤ p.nEntries) : Inv p ((s.writeCanonical p).populate) :=
  (h.writeCanonical hp).populate (State.entry_writeCanonical_ne_none s p)

/-- Every move of the block keeps the invariant. INIT's state is that of BUILD, MKPTR, LOAD (D18). -/
theorem Moves.inv (m : Moves p s t) (h : Inv p s) (hp : 5 ≤ p.nEntries) : Inv p t := by
  cases m with
  | refused => exact h.answerWith _
  | faulted _ c => exact h.raise c
  | encoded _ i hi d => exact (h.writeEntry hi d).answerWith _
  | built => exact (h.build hp).answerWith _
  | pointed _ hph => exact (h.writePointer hph).answerWith _
  | loaded _ hph hv q hq =>
    obtain rfl := h.lifecycle.pointer_correct q hq
    exact (h.emitLoad hph hv).answerWith _
  | inited =>
    have hpop := (s.writeCanonical p).populate_phase_ne_uninit
    exact (((h.build hp).writePointer hpop).emitLoad hpop rfl).answerWith _

/-- The step of a block with nothing presented, and with a word presented (R23, R57). -/
theorem step_nil (h : s.pending = []) : step s = .next s := by simp [step, transact, h]

theorem step_cons {cw : CommandWord} {rest : List CommandWord} (h : s.pending = cw :: rest) :
    step s = runWord cw (s.accept rest) := by simp [step, transact, h]

theorem runWord_of_decode {cw : CommandWord} {i : Instr} (h : decode cw = .ok i) (s : State) :
    runWord cw s = exec i s := by rw [runWord, h]

theorem runWord_of_reject {cw : CommandWord} {r : Reject} (h : decode cw = .error r) (s : State) :
    runWord cw s = illegalCmd s := by rw [runWord, h]

theorem step_keeps_inv (h : Inv hw s) (hs : step s = .next t) : Inv hw t := by
  rcases step_cases hs with ⟨-, rfl⟩ | ⟨cw, rest, -, m⟩
  · exact h
  · exact m.inv (h.accept rest) (by decide)

/-- What the host has yet to present is no part of the invariant. -/
theorem reset_inv (p : Params) (ws : List CommandWord) : Inv p { State.reset with pending := ws } := by
  refine ⟨⟨List.Pairwise.nil, by simp [State.reset]⟩, ⟨?_, ?_, ?_, ?_, ?_, ?_, ?_, ?_, ?_⟩,
    .of_consumer ⟨List.Pairwise.nil, ?_, ?_, ?_⟩ ?_ ?_⟩ <;> simp [State.reset, Consumer.powerOn]

/-- A block reset notes every entry and the pointer in the consumer's data (R141) and starts the block anew. -/
theorem Inv.applyReset (h : Inv p s) : Inv p s.applyReset := by
  have hr := reset_inv p s.pending
  refine ⟨{ hr.storage with }, { hr.lifecycle with }, .of_consumer (Consumer.Ok.notePtr ?_ _ _) (by simp) (by simp)⟩
  exact List.foldlRecOn (motive := Consumer.Ok p) _ _ h.environment.consumer
    fun c hc e he => hc.noteEntry (h.storage.table_inRange e he) _ _

/-- R22 item 2 is all that a command needs to answer. -/
theorem exec_total (h : s.ptrValid = true → s.ptr ≠ none) (i : Instr) : ∃ t, exec i s = .next t := by
  cases hf : s.fault with
  | true => exact ⟨_, exec_refused hf i⟩
  | false =>
    cases i with
    | encode index base limit access flags =>
      rw [exec_encode]
      by_cases hi : index.toNat < hw.nEntries
      · exact ⟨_, encodeCmd_ok hf hi base limit access flags⟩
      · exact ⟨_, encodeCmd_index hf (Nat.not_lt.mp hi) base limit access flags⟩
    | build => exact ⟨_, buildCmd_ok hf⟩
    | mkptr =>
      obtain ⟨t, ht, -⟩ := mkptrCmd_faults_iff_uninit (p := hw) hf
      exact ⟨t, ht⟩
    | load =>
      obtain ⟨t, ht, -⟩ := loadCmd_faults_iff_out_of_order (p := hw) hf h
      exact ⟨t, ht⟩
    | init => exact ⟨_, initCmd_ok hf⟩

/-- R55, R125: an illegal word is always answered. -/
theorem illegalCmd_total (s : State) : ∃ t, illegalCmd s = .next t := by
  cases hf : s.fault with
  | true => exact ⟨_, unlessFaulted_true hf _⟩
  | false => exact ⟨_, unlessFaulted_false hf _⟩

theorem step_total (h : s.ptrValid = true → s.ptr ≠ none) : ∃ t, step s = .next t := by
  cases hp : s.pending with
  | nil => exact ⟨s, step_nil hp⟩
  | cons cw rest =>
    rw [step_cons hp]
    cases hd : decode cw with
    | ok i =>
      rw [runWord_of_decode hd]
      exact exec_total (s := s.accept rest) h i
    | error =>
      rw [runWord_of_reject hd]
      exact illegalCmd_total _

/-! The obligations. -/

/-- Settles O36: a step waits or makes a move, and every move keeps the invariant. -/
theorem stepKeepsInvariant : Obligations.StepKeepsInvariant := by
  unfold Obligations.StepKeepsInvariant
  exact fun _ _ => step_keeps_inv

/-- Settles O37: noting old values keeps the consumer's data in form, and the block's part is that of reset. -/
theorem blockResetKeepsInvariant : Obligations.BlockResetKeepsInvariant := by
  unfold Obligations.BlockResetKeepsInvariant
  exact fun _ => Inv.applyReset

/-- Settles O38: LOAD alone can stop, on a valid and unwritten pointer, which the invariant shuts out. -/
theorem noCommandIsStopped : Obligations.NoCommandIsStopped := by
  unfold Obligations.NoCommandIsStopped
  exact fun _ h => step_total h.ptr_ne_none

/-- Settles O35: the start of every run, with nothing to present. -/
theorem resetMeetsInvariant : Obligations.ResetMeetsInvariant := by
  unfold Obligations.ResetMeetsInvariant
  exact reset_inv hw []

/-- Settles O43: the invariant holds along the run, and says all this of a state in `INSTALLED`. -/
theorem goodRunEndsLoaded : Obligations.GoodRunEndsLoaded := by
  unfold Obligations.GoodRunEndsLoaded
  rintro ws k t hrun ⟨-, hphase⟩
  have h : Inv hw t := runSteps_keeps (fun _ _ => step_keeps_inv) (reset_inv hw ws) hrun
  obtain ⟨hvalid, hloads⟩ := h.lifecycle.installed_loaded hphase
  obtain ⟨-, hptr, hwritten⟩ := h.after_load hloads
  obtain ⟨q, hq⟩ := Option.ne_none_iff_exists'.mp hptr
  exact ⟨hwritten, hvalid, hq.trans (congrArg some (h.lifecycle.pointer_correct q hq)), hloads,
    h.lifecycle.events_correct⟩

end Sys2Proof.Machine
end

section
/-! PROOFS. Steps, faults and refusals (60_exceptions.md sections 3 and 4): what a step makes of the word presented, what a
fault leaves alone, and that nothing happens under one. -/

namespace Sys2Proof.Machine

variable {s t : State} {p : Params} {cw : CommandWord} {rest : List CommandWord} {i : Instr}

/-! The decoder's part (R55, R57). -/

/-- R55: the opcodes below and above the five of R52. -/
theorem decode_of_illegal_opcode (h : (fieldOp cw).toNat = 0 ∨ 6 ≤ (fieldOp cw).toNat) :
    decode cw = .error (.illegalOp (fieldOp cw)) := by
  rcases decode_cases cw with ⟨hop, -⟩ | ⟨hop, -⟩ | ⟨hop, -⟩ | ⟨hop, -⟩ | ⟨hop, -⟩ | hd
  case inr.inr.inr.inr.inr => exact hd
  all_goals
    rw [hop] at h
    exact absurd h (by decide)

/-- A word of the opcode table decodes to the command listed when the presented word does. -/
theorem decode_of_decodeTableWord {nbits w : Nat} (h : decodeTableWord nbits w = some i) :
    decode (BitVec.ofNat 96 (w % 2 ^ nbits)) = .ok i := by
  unfold decodeTableWord at h
  split at h
  · next j hj => rw [hj, Option.some.inj h]
  · cases h

/-! Under a fault (R125). -/

theorem runWord_refused (hf : s.fault = true) (cw : CommandWord) : runWord cw s = .next s.refuse := by
  cases hd : decode cw with
  | ok i => rw [runWord_of_decode hd, exec_refused hf]
  | error r => rw [runWord_of_reject hd, illegalCmd, unlessFaulted_true hf]

/-- Every word presented under a fault is taken and refused, so only the port and the outcome move. -/
theorem runSteps_of_fault (hf : s.fault = true) (k : Nat) :
    ∃ a n, runSteps k s = .next { s with answer := a, pending := s.pending.drop k, presented := n } := by
  induction k generalizing s with
  | zero => exact ⟨s.answer, s.presented, rfl⟩
  | succ k ih =>
    cases hp : s.pending with
    | nil =>
      obtain ⟨a, n, hrun⟩ := ih hf
      refine ⟨a, n, ?_⟩
      rw [runSteps_succ (step_nil hp), hrun, hp, List.drop_nil, List.drop_nil]
    | cons cw rest =>
      obtain ⟨a, n, hrun⟩ := ih (s := (s.accept rest).refuse) hf
      exact ⟨a, n, (runSteps_succ ((step_cons hp).trans (runWord_refused (s := s.accept rest) hf cw)) k).trans hrun⟩

/-! Entering a fault (R124). -/

theorem FaultCause.code_ne_zero (c : FaultCause) : c.code ≠ 0b00 := by cases c <;> decide

/-- A move that ends in a fault raises it. -/
theorem Moves.eq_raise (m : Moves p s t) (hf : s.fault = false) (ht : t.fault = true) : ∃ c, t = s.raise c := by
  cases m with
  | refused hs => simp [hf] at hs
  | faulted _ c => exact ⟨c, rfl⟩
  | encoded | built | pointed | loaded | inited => simp [hf] at ht

/-- Settles O27: the word at the head of the host's list is run, and a fetched word is that head. -/
theorem stepRunsPresentedCommand : Obligations.StepRunsPresentedCommand := by
  unfold Obligations.StepRunsPresentedCommand
  refine ⟨fun s cw rest i hp hd _ => ?_, fun s nbits w i hd => ?_⟩
  · rw [step_cons hp, runWord_of_decode hd]
    rfl
  · rw [withFetchWord_eq, step_present, runWord_of_decode (decode_of_decodeTableWord hd)]
    rfl

/-- Settles O28: with nothing presented the transaction is empty. -/
theorem noCommandPresentedWaits : Obligations.NoCommandPresentedWaits := by
  unfold Obligations.NoCommandPresentedWaits
  exact fun _ => step_nil

/-- Settles O29: the decoder rejects the word, and with no fault before the block raises `F_ILLEGAL`. -/
theorem illegalOpcodeFaults : Obligations.IllegalOpcodeFaults := by
  unfold Obligations.IllegalOpcodeFaults
  intro s cw rest hp hf hop
  rw [step_cons hp, runWord_of_reject (decode_of_illegal_opcode hop), illegalCmd,
    unlessFaulted_false (s := s.accept rest) hf]
  rfl

/-- Settles O30: the check for a fault comes before any other, of commands and of illegal words. -/
theorem everyCommandRefusedWhileFaulted : Obligations.EveryCommandRefusedWhileFaulted := by
  unfold Obligations.EveryCommandRefusedWhileFaulted
  refine ⟨fun s i hf => exec_refused hf i, fun s cw rest hf hp => ?_⟩
  rw [step_cons hp, runWord_refused (s := s.accept rest) hf]
  rfl

/-- Settles O31: the one move that ends in a fault is raising it. -/
theorem faultEntryIsPrecise : Obligations.FaultEntryIsPrecise := by
  unfold Obligations.FaultEntryIsPrecise
  intro s t i hf h ht
  obtain ⟨c, rfl⟩ := (exec_moves h).eq_raise hf ht
  exact ⟨⟨c, rfl⟩, c.code_ne_zero, imageByte_raise c⟩

/-- Settles O32: by induction on the steps, each of which waits or refuses. -/
theorem faultIsNeverLeftByCommands : Obligations.FaultIsNeverLeftByCommands := by
  unfold Obligations.FaultIsNeverLeftByCommands
  intro s k hf
  obtain ⟨a, n, hrun⟩ := runSteps_of_fault hf k
  exact ⟨_, hrun, fun _ => rfl, ⟨rfl, rfl⟩, rfl, ⟨rfl, rfl⟩, rfl, rfl, imageByte_congr (fun _ => rfl) rfl⟩

end Sys2Proof.Machine
end

section
/-! PROOFS. What every command keeps (10_state.md sections 2 and 3): the lifecycle never goes back, load events alone reach
the consumer's register, and no command reads the table. -/

namespace Sys2Proof.Machine

variable {s t : State} {p : Params} {i : Instr}

/-! The lifecycle, move by move. -/

theorem Moves.phase_le (m : Moves p s t) : s.phase.code.toNat ≤ t.phase.code.toNat := by
  have installed_last : s.phase.code.toNat ≤ Phase.installed.code.toNat := by cases s.phase <;> decide
  cases m with
  | refused | faulted | encoded | pointed => exact Nat.le_refl _
  | built =>
    rw [State.answerWith_phase, State.populate_phase, State.writeCanonical_phase]
    cases s.phase <;> decide
  | loaded | inited => exact installed_last

theorem Moves.ptrValid_kept (m : Moves p s t) (h : s.ptrValid = true) : t.ptrValid = true := by
  cases m with
  | refused | faulted | encoded | built | loaded => exact h
  | pointed | inited => rfl

/-- Under a fault the only move is refusal, so the first cause stays. -/
theorem Moves.fault_kept (m : Moves p s t) (h : s.fault = true) : t.fault = true ∧ t.faultCode = s.faultCode := by
  cases m with
  | refused => exact ⟨h, rfl⟩
  | faulted hf | encoded hf | built hf | pointed hf | loaded hf | inited hf => simp [h] at hf

theorem Moves.entry_kept (m : Moves p s t) {j : Nat} (h : s.entry j ≠ none) : t.entry j ≠ none := by
  have canonical_kept : (s.writeCanonical p).entry j ≠ none :=
    State.writeCanonical_keeps (P := fun u => u.entry j ≠ none)
      (fun _ _ _ _ hu => State.writeEntry_entry_ne_none hu) h
  cases m with
  | refused | faulted | pointed | loaded => exact h
  | encoded => exact State.writeEntry_entry_ne_none h
  | built | inited => exact canonical_kept

theorem Moves.ptr_kept (m : Moves p s t) (h : s.ptr ≠ none) : t.ptr ≠ none := by
  cases m with
  | refused | faulted | encoded | built | loaded => exact h
  | pointed | inited => simp

/-- A move appends at most one event, and with it installs the pointer the event names. -/
theorem Moves.loads_cases (m : Moves p s t) :
    t.loads = s.loads ∨
      ∃ q, t.loads = s.loads ++ [loadEventOf p q] ∧ t.consumer = Consumer.install q ∧ t.ptr = some q ∧
        t.answer = some (.okWithLoad (loadEventOf p q)) := by
  cases m with
  | refused | faulted | encoded | built | pointed => exact .inl rfl
  | loaded _ _ _ q hq => exact .inr ⟨q, rfl, rfl, hq, rfl⟩
  | inited => exact .inr ⟨_, rfl, rfl, rfl, rfl⟩

/-! Which commands reach the consumer. -/

theorem unlessFaulted_cases {k : Result} (h : unlessFaulted s k = .next t) : t = s.refuse ∨ k = .next t := by
  cases hf : s.fault with
  | true =>
    rw [unlessFaulted_true hf] at h
    cases h
    exact .inl rfl
  | false => exact .inr (by rwa [unlessFaulted_false hf] at h)

theorem exec_loads_dtr_kept (h : exec i s = .next t) (hload : i ≠ .load) (hinit : i ≠ .init) :
    t.loads = s.loads ∧ t.consumer.dtr = s.consumer.dtr := by
  cases i with
  | encode =>
    rcases unlessFaulted_cases h with rfl | hk
    · exact ⟨rfl, rfl⟩
    · split at hk <;> cases hk <;> simp
  | build =>
    rcases unlessFaulted_cases h with rfl | hk
    · exact ⟨rfl, rfl⟩
    · cases hk
      simp
  | mkptr =>
    rcases unlessFaulted_cases h with rfl | hk
    · exact ⟨rfl, rfl⟩
    · split at hk <;> cases hk <;> simp
  | load => exact absurd rfl hload
  | init => exact absurd rfl hinit

/-- A LOAD that passes the order check finds the table populated and the pointer valid (R102). -/
theorem in_order_of_not (h : ¬(s.phase = .uninit ∨ s.ptrValid = false)) : s.phase ≠ .uninit ∧ s.ptrValid = true := by
  obtain ⟨hp, hv⟩ := not_or.mp h
  exact ⟨hp, Bool.eq_true_of_not_eq_false hv⟩

/-! Other table contents, other data of the consumer (R12, R43). -/

/-- The state with another table and other environment data, every register as it is. -/
def State.withStorage (s : State) (m : List (Nat × Descriptor)) (c : Consumer) : State :=
  { s with table := m, consumer := c }

/-- Log 13: LOAD stops on a valid pointer that is unwritten. -/
theorem loadCmd_stop (hf : s.fault = false) (ho : ¬(s.phase = .uninit ∨ s.ptrValid = false)) (hq : s.ptr = none) :
    loadCmd p s = .fault .unwrittenPointer := by
  rw [loadCmd, unlessFaulted_false hf, if_neg ho, hq]

/-- Every command decides and computes on the registers alone: with another table and other environment data it takes the
same branch, and its next state is another in these two alone. -/
theorem exec_withStorage (h : exec i s = .next t) (m : List (Nat × Descriptor)) (c : Consumer) :
    ∃ m' c', exec i (s.withStorage m c) = .next (t.withStorage m' c') := by
  cases hf : s.fault with
  | true =>
    cases h.symm.trans (exec_refused hf i)
    exact ⟨m, c, exec_refused (s := s.withStorage m c) hf i⟩
  | false =>
    cases i with
    | encode index base limit access flags =>
      rw [exec_encode] at h ⊢
      by_cases hi : index.toNat < hw.nEntries
      · cases h.symm.trans (encodeCmd_ok hf hi ..)
        exact ⟨_, _, encodeCmd_ok (s := s.withStorage m c) hf hi ..⟩
      · cases h.symm.trans (encodeCmd_index hf (Nat.not_lt.mp hi) ..)
        exact ⟨_, _, encodeCmd_index (s := s.withStorage m c) hf (Nat.not_lt.mp hi) ..⟩
    | build =>
      cases h.symm.trans (buildCmd_ok hf)
      exact ⟨_, _, buildCmd_ok (s := s.withStorage m c) hf⟩
    | mkptr =>
      by_cases hp : s.phase = .uninit
      · cases h.symm.trans (mkptrCmd_order hf hp)
        exact ⟨_, _, mkptrCmd_order (s := s.withStorage m c) hf hp⟩
      · cases h.symm.trans (mkptrCmd_ok hf hp)
        exact ⟨_, _, mkptrCmd_ok (s := s.withStorage m c) hf hp⟩
    | load =>
      by_cases ho : s.phase = .uninit ∨ s.ptrValid = false
      · cases h.symm.trans (loadCmd_order hf ho)
        exact ⟨_, _, loadCmd_order (s := s.withStorage m c) hf ho⟩
      cases hq : s.ptr with
      | none => cases h.symm.trans (loadCmd_stop hf ho hq)
      | some q =>
        obtain ⟨hp, hv⟩ := in_order_of_not ho
        cases h.symm.trans (loadCmd_ok hf hp hv hq)
        exact ⟨_, _, loadCmd_ok (s := s.withStorage m c) hf hp hv hq⟩
    | init =>
      cases h.symm.trans (initCmd_ok hf)
      exact ⟨_, _, initCmd_ok (s := s.withStorage m c) hf⟩

/-! The obligations. -/

/-- Settles O39: a step waits, or makes a move, and each move keeps each of the six. -/
theorem lifecycleIsMonotone : Obligations.LifecycleIsMonotone := by
  unfold Obligations.LifecycleIsMonotone
  intro s t h
  rcases step_cases h with ⟨-, rfl⟩ | ⟨cw, rest, -, m⟩
  · exact ⟨Nat.le_refl _, id, fun hf => ⟨hf, rfl⟩, fun _ => id, id, [], (List.append_nil _).symm, Nat.zero_le 1⟩
  · refine ⟨m.phase_le, m.ptrValid_kept, m.fault_kept, fun _ => m.entry_kept, m.ptr_kept, ?_⟩
    rcases m.loads_cases with hl | ⟨q, hl, -⟩
    · exact ⟨[], hl.trans (List.append_nil _).symm, Nat.zero_le 1⟩
    · exact ⟨[loadEventOf hw q], hl, Nat.le_refl 1⟩

/-- Settles O40: the other three commands keep both, and a move that appends an event installs its pointer. -/
theorem onlyLoadEventsReachConsumer : Obligations.OnlyLoadEventsReachConsumer := by
  unfold Obligations.OnlyLoadEventsReachConsumer
  intro s t i h
  refine ⟨fun hchange => ?_, fun hloads => ?_⟩
  · by_contra hi
    obtain ⟨hload, hinit⟩ := not_or.mp hi
    obtain ⟨hl, hd⟩ := exec_loads_dtr_kept h hload hinit
    exact hchange.elim (· hl) (· hd)
  · rcases (exec_moves h).loads_cases with hl | ⟨q, hl, hc, -, ha⟩
    · exact absurd hl hloads
    · exact ⟨_, q, hl, congrArg Consumer.dtr hc, rfl, ha⟩

/-- Settles O41: the two next states differ in the table and the environment data alone. -/
theorem commandsNeverReadTheTable : Obligations.CommandsNeverReadTheTable := by
  unfold Obligations.CommandsNeverReadTheTable
  intro s t i m c h
  obtain ⟨m', c', h'⟩ := exec_withStorage h m c
  exact ⟨_, h', rfl, ⟨rfl, rfl⟩, rfl, ⟨rfl, rfl⟩, rfl⟩

end Sys2Proof.Machine
end

section
/-! PROOFS. The command sequences that raise no fault (95_test_vectors.md section 4 item 6): the two flags of `faultFree`
are the block's own `phase` and `ptr_valid`, command by command. -/

namespace Sys2Proof.Machine

variable {s t : State} {cw : CommandWord} {i : Instr}

/-! `faultFree` by the command of the first word. -/

section
variable {p : Params} (populated pointed : Bool) (rest : List CommandWord)

theorem faultFree_reject {r : Reject} (hd : decode cw = .error r) :
    faultFree p populated pointed (cw :: rest) = false := by simp [faultFree, hd]

theorem faultFree_encode {index : BitVec 8} {base limit : BitVec 32} {access flags : BitVec 8}
    (hd : decode cw = .ok (.encode index base limit access flags)) :
    faultFree p populated pointed (cw :: rest) =
      (decide (index.toNat < p.nEntries) && faultFree p populated pointed rest) := by simp [faultFree, hd]

theorem faultFree_build (hd : decode cw = .ok .build) :
    faultFree p populated pointed (cw :: rest) = faultFree p true pointed rest := by simp [faultFree, hd]

theorem faultFree_mkptr (hd : decode cw = .ok .mkptr) :
    faultFree p populated pointed (cw :: rest) = (populated && faultFree p populated true rest) := by
  simp [faultFree, hd]

theorem faultFree_load (hd : decode cw = .ok .load) :
    faultFree p populated pointed (cw :: rest) = (populated && pointed && faultFree p populated pointed rest) := by
  simp [faultFree, hd]

theorem faultFree_init (hd : decode cw = .ok .init) :
    faultFree p populated pointed (cw :: rest) = faultFree p true true rest := by simp [faultFree, hd]

end

/-- Whether the table counts as populated (R14). -/
def State.populated (s : State) : Bool := decide (s.phase ≠ .uninit)

theorem State.populated_eq_true (h : s.phase ≠ .uninit) : s.populated = true := decide_eq_true h

theorem State.populated_eq_false (h : s.phase = .uninit) : s.populated = false := decide_eq_false (not_not_intro h)

/-- A state a fault-free sequence can go on from, with the words still to present. -/
structure Ready (s : State) (ws : List CommandWord) : Prop where
  fault_clear : s.fault = false
  pending_eq : s.pending = ws
  pointer_written : s.ptrValid = true → s.ptr ≠ none

/-- A run that is in a fault with the words still to present ends in it, every word presented. -/
theorem faulted_run {ws : List CommandWord} (hf : s.fault = true) (hp : s.pending = ws) :
    ∃ t, runSteps ws.length s = .next t ∧ t.pending = [] ∧ t.fault = true := by
  obtain ⟨a, n, hrun⟩ := runSteps_of_fault hf ws.length
  exact ⟨_, hrun, by simp [hp], hf⟩

/-- What carrying out `cw`, with the words `rest` to follow, makes of a state without a fault: a fault, and the sequence is
not fault-free, or a state ready for the rest with the flags `faultFree` goes on with. -/
inductive Continues (s : State) (cw : CommandWord) (rest : List CommandWord) (t : State) : Prop where
  | faults (hf : t.fault = true) (hp : t.pending = s.pending)
      (hfree : faultFree hw s.populated s.ptrValid (cw :: rest) = false)
  | goesOn (ht : Ready t s.pending)
      (hfree : faultFree hw s.populated s.ptrValid (cw :: rest) = faultFree hw t.populated t.ptrValid rest)

theorem exec_continues (hf : s.fault = false) (hptr : s.ptrValid = true → s.ptr ≠ none) (hd : decode cw = .ok i)
    (rest : List CommandWord) : ∃ t, exec i s = .next t ∧ Continues s cw rest t := by
  cases i with
  | encode index base limit access flags =>
    rw [exec_encode]
    by_cases hi : index.toNat < hw.nEntries
    · refine ⟨_, encodeCmd_ok hf hi .., .goesOn ⟨hf, rfl, hptr⟩ ?_⟩
      rw [faultFree_encode _ _ _ hd, decide_eq_true hi, Bool.true_and]
      rfl
    · refine ⟨_, encodeCmd_index hf (Nat.not_lt.mp hi) .., .faults rfl rfl ?_⟩
      rw [faultFree_encode _ _ _ hd, decide_eq_false hi, Bool.false_and]
  | build =>
    refine ⟨_, buildCmd_ok hf, .goesOn ⟨hf, rfl, hptr⟩ ?_⟩
    rw [faultFree_build _ _ _ hd, ← State.populated_eq_true (s.writeCanonical hw).populate_phase_ne_uninit]
    rfl
  | mkptr =>
    by_cases hp : s.phase = .uninit
    · refine ⟨_, mkptrCmd_order hf hp, .faults rfl rfl ?_⟩
      rw [faultFree_mkptr _ _ _ hd, State.populated_eq_false hp, Bool.false_and]
    · refine ⟨_, mkptrCmd_ok hf hp, .goesOn ⟨hf, rfl, by simp⟩ ?_⟩
      rw [faultFree_mkptr _ _ _ hd]
      show (s.populated && faultFree hw s.populated true rest) = faultFree hw s.populated true rest
      rw [State.populated_eq_true hp, Bool.true_and]
  | load =>
    by_cases ho : s.phase = .uninit ∨ s.ptrValid = false
    · refine ⟨_, loadCmd_order hf ho, .faults rfl rfl ?_⟩
      rw [faultFree_load _ _ _ hd]
      rcases ho with hp | hv
      · rw [State.populated_eq_false hp, Bool.false_and, Bool.false_and]
      · rw [hv, Bool.and_false, Bool.false_and]
    · obtain ⟨hp, hv⟩ := in_order_of_not ho
      obtain ⟨q, hq⟩ := Option.ne_none_iff_exists'.mp (hptr hv)
      refine ⟨_, loadCmd_ok hf hp hv hq, .goesOn ⟨hf, rfl, hptr⟩ ?_⟩
      rw [faultFree_load _ _ _ hd, State.populated_eq_true hp, State.answerWith_ptrValid, State.emitLoad_ptrValid, hv,
        Bool.and_self, Bool.true_and]
      rfl
  | init =>
    refine ⟨_, initCmd_ok hf, .goesOn ⟨hf, rfl, by simp⟩ ?_⟩
    rw [faultFree_init _ _ _ hd]
    rfl

/-- The same of one word, an illegal one too. -/
theorem runWord_continues (hf : s.fault = false) (hptr : s.ptrValid = true → s.ptr ≠ none) (cw : CommandWord)
    (rest : List CommandWord) : ∃ t, runWord cw s = .next t ∧ Continues s cw rest t := by
  cases hd : decode cw with
  | ok i =>
    rw [runWord_of_decode hd]
    exact exec_continues hf hptr hd rest
  | error r =>
    rw [runWord_of_reject hd, illegalCmd, unlessFaulted_false hf]
    exact ⟨_, rfl, .faults rfl rfl (faultFree_reject _ _ _ hd)⟩

/-- From a ready state the words run without a fault exactly when they are fault-free. -/
theorem run_faultFree {ws : List CommandWord} (h : Ready s ws) :
    ∃ t, runSteps ws.length s = .next t ∧ t.pending = [] ∧
      (t.fault = false ↔ faultFree hw s.populated s.ptrValid ws = true) := by
  induction ws generalizing s with
  | nil => exact ⟨s, rfl, h.pending_eq, by simp [h.fault_clear, faultFree]⟩
  | cons cw rest ih =>
    obtain ⟨u, hu, hcont⟩ := runWord_continues (s := s.accept rest) h.fault_clear h.pointer_written cw rest
    have hrun : runSteps (cw :: rest).length s = runSteps rest.length u :=
      runSteps_succ ((step_cons h.pending_eq).trans hu) _
    have hflags : faultFree hw s.populated s.ptrValid (cw :: rest) =
        faultFree hw (s.accept rest).populated (s.accept rest).ptrValid (cw :: rest) := rfl
    rw [hrun, hflags]
    cases hcont with
    | faults hf hp hfree =>
      obtain ⟨t, ht, hpt, hft⟩ := faulted_run hf hp
      refine ⟨t, ht, hpt, ?_⟩
      rw [hft, hfree]
      simp
    | goesOn hready hfree =>
      rw [hfree]
      exact ih hready

/-- Settles O42: by induction on the words, from any ready state; after reset the table is not populated. -/
theorem faultFreeSequencesCharacterised : Obligations.FaultFreeSequencesCharacterised := by
  unfold Obligations.FaultFreeSequencesCharacterised
  exact fun ws => run_faultFree ⟨rfl, rfl, fun hv => Bool.noConfusion hv⟩

end Sys2Proof.Machine
end

section
/-! PROOFS. The laws of `pack` (40_pack_encode.md R75 and R79): the granularity byte as the source writes it, `pack` as a
bijection, and limits that overflow 20 bits. -/

namespace Sys2Proof

/-! The two nibbles of a byte. -/

theorem nibbles_eq (x : BitVec 8) : x.extractLsb' 4 4 ++ x.extractLsb' 0 4 = x :=
  (slice_concat x 0 4 4).trans (slice_self x)

theorem and_low_nibble (x : BitVec 8) : x &&& 0x0F = (0 : BitVec 4) ++ x.extractLsb' 0 4 := by
  conv_lhs => rw [← nibbles_eq x, show (0x0F : BitVec 8) = 0#4 ++ BitVec.allOnes 4 from rfl]
  rw [BitVec.and_append, BitVec.and_zero, BitVec.and_allOnes]
  rfl

theorem and_high_nibble (x : BitVec 8) : x &&& 0xF0 = x.extractLsb' 4 4 ++ (0 : BitVec 4) := by
  conv_lhs => rw [← nibbles_eq x, show (0xF0 : BitVec 8) = BitVec.allOnes 4 ++ 0#4 from rfl]
  rw [BitVec.and_append, BitVec.and_zero, BitVec.and_allOnes]
  rfl

namespace Machine

variable {lw aw fw : Nat}

/-- The low term of the source's formula (R75). -/
theorem source_limit_term (limit : BitVec lw) :
    (limit >>> 16).setWidth 8 &&& (0x0F : BitVec 8) = (0 : BitVec 4) ++ packLimitNibble limit := by
  rw [and_low_nibble, BitVec.setWidth_ushiftRight_eq_extractLsb, slice_slice _ (by decide)]
  rfl

/-- The high term of the source's formula (R75). -/
theorem source_flags_term (flags : BitVec fw) :
    flags.setWidth 8 &&& (0xF0 : BitVec 8) = packFlagsNibble flags ++ (0 : BitVec 4) := by
  rw [and_high_nibble, BitVec.extractLsb'_setWidth_of_le (by decide)]
  rfl

/-- Nibbles in different places have no bit in common. -/
theorem nibbles_and (hi lo : BitVec 4) : ((0 : BitVec 4) ++ lo) &&& (hi ++ (0 : BitVec 4)) = (0 : BitVec 8) := by
  have h := BitVec.and_append (x₁ := 0#4) (y₁ := lo) (x₂ := hi) (y₂ := 0#4)
  rw [BitVec.zero_and, BitVec.and_zero] at h
  exact h

theorem nibbles_or (hi lo : BitVec 4) : ((0 : BitVec 4) ++ lo) ||| (hi ++ (0 : BitVec 4)) = hi ++ lo := by
  have h := BitVec.or_append (x₁ := 0#4) (y₁ := lo) (x₂ := hi) (y₂ := 0#4)
  rw [BitVec.zero_or, BitVec.or_zero] at h
  exact h

/-- Settles O8: the two terms are the two nibbles, each with zeros in the other's place. -/
theorem granularityByteIsSourceFormula : Obligations.GranularityByteIsSourceFormula := by
  unfold Obligations.GranularityByteIsSourceFormula
  intro lw aw fw base limit access flags
  have hgran : (pack base limit access flags).extractLsb' 48 8 = packFlagsNibble flags ++ packLimitNibble limit :=
    descGranularity_pack base limit access flags
  rw [source_limit_term, source_flags_term, BitVec.add_eq_or_of_and_eq_zero _ _ (nibbles_and _ _), nibbles_or]
  exact ⟨hgran, hgran, nibbles_and _ _, hgran⟩

/-! Packing what was read from a descriptor (R79 law 5), field by field. -/

section
variable (d : Descriptor)

theorem packLimitLow_descLimit : packLimitLow (descLimit d) = descLimitLow d :=
  (slice_append_low _ _ (by decide)).trans (slice_self _)

theorem packLimitNibble_descLimit : packLimitNibble (descLimit d) = descLimitNibble d :=
  (slice_append_high _ _ _ (by decide)).trans (slice_self _)

theorem packBaseLow_descBase : packBaseLow (descBase d) = descBaseLow d :=
  (slice_append_low _ _ (by decide)).trans (slice_self _)

theorem packBaseMid_descBase : packBaseMid (descBase d) = descBaseMid d :=
  (slice_append_high _ _ _ (by decide)).trans ((slice_append_low _ _ (by decide)).trans (slice_self _))

theorem packBaseHigh_descBase : packBaseHigh (descBase d) = descBaseHigh d :=
  (slice_append_high _ _ _ (by decide)).trans ((slice_append_high _ _ _ (by decide)).trans (slice_self _))

theorem packFlagsNibble_descFlagsNibble : packFlagsNibble (descFlagsNibble d ++ (0 : BitVec 4)) = descFlagsNibble d :=
  (slice_append_high _ _ _ (by decide)).trans (slice_self _)

/-- R79 law 5: every 64-bit value is packed, from what is read of it. -/
theorem pack_desc :
    pack (descBase d) (descLimit d) (descAccess d) (descFlagsNibble d ++ (0 : BitVec 4)) = d := by
  have haccess : packAccess (descAccess d) = descAccess d := slice_self _
  have hgran : descFlagsNibble d ++ descLimitNibble d = descGranularity d := slice_concat d 48 4 4
  rw [pack, packGranularity, packLimitLow_descLimit, packLimitNibble_descLimit, packBaseLow_descBase,
    packBaseMid_descBase, packBaseHigh_descBase, packFlagsNibble_descFlagsNibble, haccess, hgran]
  exact descriptor_eq_fields d

end

/-- Settles O10: reading and packing undo each other. -/
theorem packIsBijection : Obligations.PackIsBijection := by
  unfold Obligations.PackIsBijection
  exact ⟨by decide, fun _ _ _ base limit access flags => ⟨descBase_pack base limit access flags,
    descLimit_pack base limit access flags, descAccess_pack base limit access flags,
    descFlagsNibble_pack base limit access flags⟩, pack_desc⟩

/-- The low `n` bits of a sum do not see a multiple of `2 ^ n`, even where the sum wraps. -/
theorem low_slice_add_multiple {w n : Nat} (h : n ≤ w) (x y : BitVec w) :
    (x + y * BitVec.ofNat w (2 ^ n)).extractLsb' 0 n = x.extractLsb' 0 n := by
  refine BitVec.eq_of_toNat_eq ?_
  have hdvd : 2 ^ n ∣ 2 ^ w := Nat.pow_dvd_pow 2 h
  simp only [slice_toNat, Nat.pow_zero, Nat.div_one, BitVec.toNat_add, BitVec.toNat_mul, BitVec.toNat_ofNat]
  rw [Nat.mod_mod_of_dvd _ hdvd, Nat.add_mod, Nat.mod_mod_of_dvd _ hdvd, Nat.mul_mod, Nat.mod_mod_of_dvd _ hdvd,
    Nat.mod_self, Nat.mul_zero, Nat.zero_mod, Nat.add_zero, Nat.mod_mod]

/-- Settles O11: `pack` reads the low 20 bits of the limit alone. -/
theorem limitOverflowDoesNotLeak : Obligations.LimitOverflowDoesNotLeak := by
  unfold Obligations.LimitOverflowDoesNotLeak
  intro lw aw fw base limit x access flags h
  exact pack_eq_of_slices_eq (low_slice_add_multiple h limit x) rfl base access

end Machine
end Sys2Proof
end

section
/-! PROOFS. ENCODE (40_pack_encode.md R80 to R84): what it writes, when it faults, and how two ENCODEs compose. -/

namespace Sys2Proof.Machine

variable {s t : State} {p : Params} {c : Consumer}

/-! Two notes in the consumer's data. -/

/-- Noting an entry leaves the old values of every other entry. -/
theorem Consumer.oldOf_noteEntry_ne {i j : Nat} (hij : i ≠ j) (c : Consumer) (old new : Option Descriptor) :
    (c.noteEntry i old new).oldOf j = c.oldOf j := by
  rcases c.noteEntry_cases i old new with h | ⟨-, h⟩ <;> rw [h]
  rw [Consumer.oldOf, Sparse.get_set_ne _ _ hij, Consumer.oldOf]

/-- Notes of different entries commute, in canonical form. -/
theorem Consumer.noteEntry_comm (h : Sparse.WF c.oldEntries) {i j : Nat} (hij : i ≠ j)
    (old new old' new' : Option Descriptor) :
    (c.noteEntry i old new).noteEntry j old' new' = (c.noteEntry j old' new').noteEntry i old new := by
  by_cases hi : c.dtr = none ∨ old = new
  · have hi' : (c.noteEntry j old' new').dtr = none ∨ old = new := by rwa [Consumer.noteEntry_dtr]
    rw [Consumer.noteEntry_of_same hi, Consumer.noteEntry_of_same hi']
  by_cases hj : c.dtr = none ∨ old' = new'
  · have hj' : (c.noteEntry i old new).dtr = none ∨ old' = new' := by rwa [Consumer.noteEntry_dtr]
    rw [Consumer.noteEntry_of_same hj, Consumer.noteEntry_of_same hj']
  have hi' : ¬((c.noteEntry j old' new').dtr = none ∨ old = new) := by rwa [Consumer.noteEntry_dtr]
  have hj' : ¬((c.noteEntry i old new).dtr = none ∨ old' = new') := by rwa [Consumer.noteEntry_dtr]
  rw [Consumer.noteEntry_of_change hj', Consumer.noteEntry_of_change hi', Consumer.oldOf_noteEntry_ne hij,
    Consumer.oldOf_noteEntry_ne hij.symm, Consumer.noteEntry_of_change hi, Consumer.noteEntry_of_change hj]
  exact congrArg (fun m => { c with oldEntries := m }) (Sparse.set_comm h hij _ _)

/-! The outcome of a command is written last and read by nothing (R8). -/

theorem State.answerWith_writeEntry (s : State) (a : Answer) (i : Nat) (d : Descriptor) :
    (s.answerWith a).writeEntry i d = (s.writeEntry i d).answerWith a := rfl

theorem State.answerWith_writePointer (s : State) (a : Answer) (q : TablePointer) :
    (s.answerWith a).writePointer q = (s.writePointer q).answerWith a := rfl

theorem State.answerWith_answerWith (s : State) (a b : Answer) : (s.answerWith a).answerWith b = s.answerWith b := rfl

/-! Two entry writes (R84). -/

/-- R84: writing an entry the value it has changes nothing. -/
theorem State.writeEntry_idem (s : State) (i : Nat) (d : Descriptor) :
    (s.writeEntry i d).writeEntry i d = s.writeEntry i d := by
  have htable := Sparse.set_set s.table i d d
  have hconsumer : (s.writeEntry i d).consumer.noteEntry i ((s.writeEntry i d).entry i) (some d) =
      (s.writeEntry i d).consumer := by
    rw [State.entry_writeEntry, if_pos rfl, Consumer.noteEntry_same]
  exact congrArg₂ s.withStorage htable hconsumer

/-- R84: writes of different entries commute, in canonical form. -/
theorem State.writeEntry_comm (htable : Sparse.WF s.table) (hold : Sparse.WF s.consumer.oldEntries) {i j : Nat}
    (hij : i ≠ j) (d e : Descriptor) :
    (s.writeEntry i d).writeEntry j e = (s.writeEntry j e).writeEntry i d := by
  have hconsumer : (s.writeEntry i d).consumer.noteEntry j ((s.writeEntry i d).entry j) (some e) =
      (s.writeEntry j e).consumer.noteEntry i ((s.writeEntry j e).entry i) (some d) := by
    rw [State.entry_writeEntry, if_neg hij, State.entry_writeEntry, if_neg hij.symm]
    exact Consumer.noteEntry_comm hold hij ..
  exact congrArg₂ s.withStorage (Sparse.set_comm htable hij d e) hconsumer

/-- R84: the later of two writes of an entry wins. -/
theorem State.entry_writeEntry_writeEntry (s : State) (i : Nat) (d e : Descriptor) (j : Nat) :
    ((s.writeEntry i d).writeEntry i e).entry j = (s.writeEntry i e).entry j := by
  simp only [State.entry_writeEntry]
  split <;> rfl

/-- The bytes of an entry just written (R32). -/
theorem imageByte_writeEntry_self {i k : Nat} (hi : i < p.nEntries) (hk : k < 8) (d : Descriptor) :
    imageByte p (s.writeEntry i d) (entryAddr p i + k) = some (byteOf d k) := by
  rw [imageByte_entry hi hk, State.entry_writeEntry, if_pos rfl]
  rfl

/-! The obligations. -/

/-- Settles O12: the three branches of the command, and the frame of an entry write. -/
theorem encodeWritesOneEntry : Obligations.EncodeWritesOneEntry := by
  unfold Obligations.EncodeWritesOneEntry
  intro s index base limit access flags
  refine ⟨fun hf => exec_refused hf _, fun hf hi => encodeCmd_index hf hi base limit access flags, fun hf hi =>
    ⟨_, encodeCmd_ok hf hi base limit access flags, ?_, ?_, ⟨rfl, rfl⟩, rfl, ⟨rfl, rfl⟩, rfl, ⟨rfl, rfl⟩, ?_, rfl,
      fun k hk => ?_, fun a ha => ?_⟩⟩
  · rw [State.entry_answerWith, State.entry_writeEntry, if_pos rfl]
  · intro j hj
    rw [State.entry_answerWith, State.entry_writeEntry, if_neg hj.symm]
  · rw [State.answerWith_consumer, State.writeEntry_consumer, Consumer.noteEntry_dtr]
  · rw [imageByte_answerWith, imageByte_writeEntry_self hi hk]
  · rw [imageByte_answerWith, imageByte_writeEntry_outside ha]

/-- Settles O13: the bound is checked first, and under the fault every command is refused. -/
theorem indexOutOfBoundsFaults : Obligations.IndexOutOfBoundsFaults := by
  unfold Obligations.IndexOutOfBoundsFaults
  refine ⟨fun p s index base limit access flags hf hi => ?_, fun s index base limit access flags hf => ?_⟩
  · exact ⟨_, encodeCmd_index hf hi base limit access flags, rfl, rfl, rfl, fun _ => rfl, ⟨rfl, rfl⟩, rfl, rfl, rfl,
      imageByte_raise .index, fun i => exec_refused rfl i⟩
  · rw [exec_encode]
    by_cases hi : index.toNat < hw.nEntries
    · have h4 : index.toNat ≤ 4 := Nat.le_of_lt_succ hi
      exact ⟨_, encodeCmd_ok hf hi base limit access flags, by simp [h4], by simp [Nat.lt_succ_of_le h4]⟩
    · have h5 : 5 ≤ index.toNat := Nat.not_lt.mp hi
      exact ⟨_, encodeCmd_index hf h5 base limit access flags, by simp [Nat.lt_of_succ_le h5], by simp [h5]⟩

/-- Settles O14: the laws of entry writes, carried over to ENCODE. -/
theorem encodesOverwriteAndCommute : Obligations.EncodesOverwriteAndCommute := by
  unfold Obligations.EncodesOverwriteAndCommute
  intro s i j b b' l l' a a' f f' hf hi hj
  simp only [exec_encode]
  refine ⟨?overwrite, fun hij htable hold => ?commute, ?again⟩
  case overwrite =>
    have hentry := s.entry_writeEntry_writeEntry i.toNat (pack b l a f) (pack b' l' a' f')
    exact ⟨_, _, _, encodeCmd_ok hf hi .., encodeCmd_ok (by exact hf) hi .., encodeCmd_ok hf hi .., hentry,
      imageByte_congr hentry rfl⟩
  case commute =>
    have hcomm := State.writeEntry_comm htable hold (mt BitVec.eq_of_toNat_eq hij) (pack b l a f) (pack b' l' a' f')
    refine ⟨_, _, _, encodeCmd_ok hf hi .., encodeCmd_ok (by exact hf) hj .., encodeCmd_ok hf hj ..,
      (encodeCmd_ok (by exact hf) hi ..).trans ?_⟩
    simp only [State.answerWith_writeEntry, State.answerWith_answerWith, hcomm]
  case again =>
    refine ⟨_, encodeCmd_ok hf hi .., (encodeCmd_ok (by exact hf) hi ..).trans ?_⟩
    simp only [State.answerWith_writeEntry, State.answerWith_answerWith, State.writeEntry_idem]

end Sys2Proof.Machine
end

section
/-! PROOFS. BUILD, MKPTR, LOAD and INIT (41_table_build.md, 42_pointer_load.md): what each writes, when it faults, and how
they compose. -/

namespace Sys2Proof.Machine

variable {s t : State} {p : Params}

/-! The canonical table (R91). -/

/-- The Table Builder lists the entries 0 to 4. -/
theorem get_canonEntries_of_le (p : Params) {j : Nat} (h : 5 ≤ j) : Sparse.get (canonEntries p) j = none := by
  simp only [canonEntries, Sparse.get_cons, Sparse.get_nil]
  rw [if_neg (by omega), if_neg (by omega), if_neg (by omega), if_neg (by omega), if_neg (by omega)]

theorem get_canonEntries_ne_none (p : Params) {j : Nat} (h : j < 5) : Sparse.get (canonEntries p) j ≠ none := by
  have hj : j = 0 ∨ j = 1 ∨ j = 2 ∨ j = 3 ∨ j = 4 := by omega
  rcases hj with rfl | rfl | rfl | rfl | rfl <;> simp [canonEntries, Sparse.get_cons]

/-- R96: the entries from 5 on. -/
theorem State.entry_writeCanonical_of_le (s : State) (p : Params) {j : Nat} (h : 5 ≤ j) :
    (s.writeCanonical p).entry j = s.entry j := by
  rw [State.entry_writeCanonical, get_canonEntries_of_le p h, Option.none_or]

/-- R91: the entries 0 to 4, whatever they were. -/
theorem State.entry_writeCanonical_of_lt (s : State) (p : Params) {j : Nat} (h : j < 5) :
    (s.writeCanonical p).entry j = Sparse.get (canonEntries p) j := by
  rw [State.entry_writeCanonical]
  obtain ⟨d, hd⟩ := Option.ne_none_iff_exists'.mp (get_canonEntries_ne_none p h)
  rw [hd, Option.some_or]

/-- The five entries of this hardware as the numbers of R91. -/
theorem State.entry_writeCanonical_hw (s : State) :
    (s.writeCanonical hw).entry 0 = some 0x0000000000000000 ∧
      (s.writeCanonical hw).entry 1 = some 0x00CF9A000000FFFF ∧
      (s.writeCanonical hw).entry 2 = some 0x00CF92000000FFFF ∧
      (s.writeCanonical hw).entry 3 = some 0x00CFFA000000FFFF ∧
      (s.writeCanonical hw).entry 4 = some 0x00CFF2000000FFFF := by
  simp only [State.entry_writeCanonical]
  exact ⟨congrArg some nullDescriptor_eq, congrArg some flatDescriptor_kcode, congrArg some flatDescriptor_kdata,
    congrArg some flatDescriptor_ucode, congrArg some flatDescriptor_udata⟩

/-- The canonical entries take 40 bytes from `TABLE_BASE` on; every other byte is as before. -/
theorem imageByte_writeCanonical_outside {a : Nat} (ha : ¬(entryAddr p 0 ≤ a ∧ a < entryAddr p 0 + 40)) :
    imageByte p (s.writeCanonical p) a = imageByte p s a := by
  refine State.writeCanonical_keeps (P := fun u => imageByte p u a = imageByte p s a) (fun u i d hi hu => ?_) rfl
  have hout : ¬(entryAddr p i ≤ a ∧ a < entryAddr p i + 8) := by
    unfold entryAddr selector at ha ⊢
    omega
  exact (imageByte_writeEntry_outside hout).trans hu

/-! The pointer (R100). -/

/-- The 16 bits of the limit hold `8*N_ENTRIES - 1` for every legal length. -/
theorem pointerValue_limit_toNat (hp : p.Legal) : (pointerValue p).limit.toNat = 8 * p.nEntries - 1 := by
  obtain ⟨-, hn, -⟩ := hp
  rw [pointerValue, BitVec.toNat_ofNat, Nat.mod_eq_of_lt (by omega)]

/-- R101: assembling the pointer it has changes nothing. -/
theorem State.writePointer_idem (s : State) (q : TablePointer) :
    (s.writePointer q).writePointer q = s.writePointer q :=
  congrArg ((s.writePointer q).withStorage s.table) (Consumer.notePtr_same _ _)

/-! Five ENCODE words (R93). -/

/-- A run that begins with an in-bounds ENCODE in its canonical word. -/
theorem runSteps_encode_word {k : Nat} {rest : List CommandWord} {index : BitVec 8} {base limit : BitVec 32}
    {access flags : BitVec 8} (hf : s.fault = false)
    (hp : s.pending = encode (.encode index base limit access flags) :: rest) (hi : index.toNat < hw.nEntries) :
    runSteps (k + 1) s =
      runSteps k (((s.accept rest).writeEntry index.toNat (pack base limit access flags)).answerWith .ok) := by
  refine runSteps_succ ?_ k
  rw [step_cons hp, runWord_of_decode (decode_encode _), exec_encode]
  exact encodeCmd_ok (s := s.accept rest) hf hi base limit access flags

/-- Assembling lines none of which is refused. -/
theorem mapM_assemble {ls : List AsmLine} (h : ∀ l ∈ ls, l.wellFormed = true) :
    ls.mapM assemble = .ok (ls.map fun l => encode (lineInstr l)) := by
  induction ls with
  | nil => rfl
  | cons l ls ih =>
    rw [List.mapM_cons, assemble_well_formed ((wellFormed_iff l).mp (h l List.mem_cons_self)),
      ih fun l' hl' => h l' (List.mem_cons_of_mem _ hl')]
    rfl

/-- R93: the words of the Table Builder's listing make its five writes, one per step. -/
theorem run_builder_words (hf : s.fault = false) (rest : List CommandWord) :
    runSteps 5 { s with pending := (builderLines.map fun l => encode (lineInstr l)) ++ rest } =
      .next { (s.writeCanonical hw).answerWith .ok with pending := rest, presented := s.presented + 5 } := by
  refine Eq.trans (runSteps_encode_word hf rfl (by decide)) ?_
  refine Eq.trans (runSteps_encode_word hf rfl (by decide)) ?_
  refine Eq.trans (runSteps_encode_word hf rfl (by decide)) ?_
  refine Eq.trans (runSteps_encode_word hf rfl (by decide)) ?_
  refine Eq.trans (runSteps_encode_word hf rfl (by decide)) ?_
  rfl

/-! The obligations. -/

/-- Settles O15: the Table Builder's writes, with the values of R91. -/
theorem buildWritesCanonicalTable : Obligations.BuildWritesCanonicalTable := by
  unfold Obligations.BuildWritesCanonicalTable
  intro s hf
  obtain ⟨h0, h1, h2, h3, h4⟩ := s.entry_writeCanonical_hw
  exact ⟨_, buildCmd_ok hf, h0, h1, h2, h3, h4, fun _ => s.entry_writeCanonical_of_le hw, rfl, ⟨rfl, rfl⟩, ⟨rfl, rfl⟩,
    rfl, ⟨rfl, rfl⟩, s.writeCanonical_dtr hw, rfl, fun _ => imageByte_writeCanonical_outside⟩

/-- Settles O16: the phase update of BUILD, phase by phase. -/
theorem buildAdvancesThePhase : Obligations.BuildAdvancesThePhase := by
  unfold Obligations.BuildAdvancesThePhase
  intro s hf
  exact ⟨_, buildCmd_ok hf, s.entry_writeCanonical_ne_none hw, fun h => by simp [h], fun h => by simp [h],
    fun h => by simp [h], ⟨rfl, rfl⟩, rfl⟩

/-- Settles O17: the Table Builder lists no entry from 5 on. -/
theorem buildLeavesFurtherEntries : Obligations.BuildLeavesFurtherEntries := by
  unfold Obligations.BuildLeavesFurtherEntries
  exact fun p s hf => ⟨_, buildCmd_ok hf, fun _ hj _ => s.entry_writeCanonical_of_le p hj⟩

/-- Settles O18: each of the five words writes one of the entries the Table Builder writes, in the same order. -/
theorem buildEqualsFiveEncodes : Obligations.BuildEqualsFiveEncodes := by
  unfold Obligations.BuildEqualsFiveEncodes
  intro s rest hf
  exact ⟨_, _, _, mapM_assemble (by decide), rfl, run_builder_words hf rest, buildCmd_ok hf, rfl⟩

/-- Settles O19: the three branches of the command, the bytes of the pointer record, and the limit of every length. -/
theorem mkptrAssemblesPointer : Obligations.MkptrAssemblesPointer := by
  unfold Obligations.MkptrAssemblesPointer
  refine ⟨fun s => ⟨fun hf => exec_refused hf _, fun hf hp => mkptrCmd_order hf hp, fun hf hp => ?_⟩,
    fun p s hlegal hf hp => ⟨_, _, mkptrCmd_ok hf hp, rfl, pointerValue_limit_toNat hlegal, rfl⟩⟩
  have hbyte {k : Nat} (hk : k < 6) :
      imageByte hw (s.writePointer (pointerValue hw)) (hw.ptrAddr.toNat + k) =
        some (byteOf (pointerValue hw).packed k) := imageByte_pointer hw_legal hk
  refine ⟨_, mkptrCmd_ok hf hp, rfl, rfl, fun _ => rfl, rfl, ⟨rfl, rfl⟩, rfl, ⟨rfl, rfl⟩, Consumer.notePtr_dtr _ _ _,
    rfl, ?byte0, ?byte1, fun k hk => ?base, fun a ha => imageByte_writePointer_outside (s := s) ha⟩
  case byte0 => exact (hbyte (k := 0) (by decide)).trans (congrArg some (byteOf_packed_limit _ (by decide)))
  case byte1 => exact (hbyte (k := 1) (by decide)).trans (congrArg some (byteOf_packed_limit _ (by decide)))
  case base =>
    have hb := byteOf_packed_base (pointerValue hw) (Nat.le_add_right 2 k)
    rw [Nat.add_sub_cancel_left] at hb
    rw [Nat.add_assoc]
    exact (hbyte (by omega)).trans (congrArg some hb)

/-- Settles O20: the order check, and that the second pointer write finds the pointer it writes. -/
theorem mkptrNeedsPopulatedTable : Obligations.MkptrNeedsPopulatedTable := by
  unfold Obligations.MkptrNeedsPopulatedTable
  refine fun s hf => ⟨fun hp => mkptrCmd_order hf hp, fun hp => ?_⟩
  have hpop : s.phase ≠ .uninit := by rcases hp with hp | hp <;> simp [hp]
  refine ⟨_, mkptrCmd_ok hf hpop, rfl, (mkptrCmd_ok (by exact hf) (by exact hpop)).trans ?_⟩
  simp only [State.answerWith_writePointer, State.answerWith_answerWith, State.writePointer_idem]

/-- Settles O21: the load event and nothing else. -/
theorem loadHandsOverPointer : Obligations.LoadHandsOverPointer := by
  unfold Obligations.LoadHandsOverPointer
  exact fun s q hf hp hv hq => ⟨_, loadCmd_ok hf hp hv hq, rfl, rfl, rfl, rfl, fun _ => rfl, ⟨rfl, rfl⟩, ⟨rfl, rfl⟩,
    ⟨rfl, rfl⟩, imageByte_congr (fun _ => rfl) rfl⟩

/-- Settles O22: the order check of LOAD. -/
theorem loadOutOfOrderFaults : Obligations.LoadOutOfOrderFaults := by
  unfold Obligations.LoadOutOfOrderFaults
  exact fun s hf h => loadCmd_order hf h

/-- Settles O24: the writes of BUILD and MKPTR, then the load event. -/
theorem initInstallsCanonicalTable : Obligations.InitInstallsCanonicalTable := by
  unfold Obligations.InitInstallsCanonicalTable
  intro s hf
  obtain ⟨h0, h1, h2, h3, h4⟩ := s.entry_writeCanonical_hw
  exact ⟨_, initCmd_ok hf, h0, h1, h2, h3, h4, fun _ => s.entry_writeCanonical_of_le hw, rfl, rfl, rfl, rfl, rfl, rfl,
    ⟨rfl, rfl⟩, ⟨rfl, rfl⟩, fun a htable hptr =>
      (imageByte_writePointer_outside (s := s.writeCanonical hw) hptr).trans (imageByte_writeCanonical_outside htable)⟩

/-- Settles O25: refused under a fault, else the three commands one after the other. -/
theorem initEqualsBuildMkptrLoad : Obligations.InitEqualsBuildMkptrLoad := by
  unfold Obligations.InitEqualsBuildMkptrLoad
  refine fun s => ⟨fun hf => exec_refused hf _, fun hf => ?_⟩
  obtain ⟨t, u, v, ht, hu, hv, hinit, -, hanswer⟩ := build_mkptr_load_eq_init (p := hw) hf
  exact ⟨t, u, v, ht, hu, hv, hinit, hanswer⟩

/-- R97: building again undoes an entry write in bounds, when the table was built before. -/
theorem State.entry_writeCanonical_writeEntry (hs : ∀ j, (s.writeCanonical p).entry j = s.entry j) {i : Nat}
    (hi : i < 5) (d : Descriptor) (j : Nat) : ((s.writeEntry i d).writeCanonical p).entry j = s.entry j := by
  rw [← hs j]
  by_cases hj : j < 5
  · rw [State.entry_writeCanonical_of_lt _ p hj, State.entry_writeCanonical_of_lt _ p hj]
  · have hj : 5 ≤ j := Nat.not_lt.mp hj
    rw [State.entry_writeCanonical_of_le _ p hj, State.entry_writeCanonical_of_le _ p hj, State.entry_writeEntry,
      if_neg (by omega)]

/-- A table that was built is canonical. -/
theorem State.entry_writeCanonical_idem (s : State) (p : Params) (j : Nat) :
    ((s.writeCanonical p).writeCanonical p).entry j = (s.writeCanonical p).entry j := by
  by_cases hj : j < 5
  · rw [State.entry_writeCanonical_of_lt _ p hj, State.entry_writeCanonical_of_lt _ p hj]
  · rw [State.entry_writeCanonical_of_le _ p (Nat.not_lt.mp hj)]

/-- Settles O26: the second INIT writes over what the ENCODE wrote, and assembles the pointer it finds. -/
theorem initIsIdempotentOnBytes : Obligations.InitIsIdempotentOnBytes := by
  unfold Obligations.InitIsIdempotentOnBytes
  intro s index base limit access flags hf hi
  refine ⟨_, _, _, loadEventOf hw (pointerValue hw), initCmd_ok hf,
    encodeCmd_ok (by exact hf) hi base limit access flags, initCmd_ok (by exact hf), imageByte_congr ?_ rfl, ⟨rfl, rfl⟩, rfl, rfl, ?_⟩
  · exact State.entry_writeCanonical_writeEntry (s.entry_writeCanonical_idem hw) hi _
  · exact List.append_assoc s.loads _ _

/-- Settles O44: INIT's state, entry by entry. -/
theorem initFromResetMeetsDuties : Obligations.InitFromResetMeetsDuties := by
  unfold Obligations.InitFromResetMeetsDuties
  exact ⟨_, initCmd_ok (s := State.reset) (p := hw) rfl, ⟨rfl, rfl⟩, rfl, State.reset.entry_writeCanonical_hw.1,
    State.reset.entry_writeCanonical_ne_none hw⟩

/-- Settles O56: the bytes evaluated under the bit assignment. -/
theorem canonicalBytesFromAttributes : Obligations.CanonicalBytesFromAttributes := by
  unfold Obligations.CanonicalBytesFromAttributes
  decide

end Sys2Proof.Machine
end

section
/-! PROOFS. The two memory images and the reads of them (20_memory.md sections 1 to 3): their bytes, the list of the memory,
and the value a read makes of the bytes it covers. -/

namespace Sys2Proof.Machine

variable {p : Params} {s t : State}

/-! Bytes with no value (R30, R35). -/

theorem imageByte_outside {a : Nat} (h : locate p a = none) : imageByte p s a = none := by simp [imageByte, h]

/-- With nothing written no byte has a value. -/
theorem imageByte_unwritten (he : ∀ i, s.entry i = none) (hq : s.ptr = none) (a : Nat) : imageByte p s a = none := by
  unfold imageByte
  split <;> simp [he, hq]

/-! The list of the memory (R30). -/

/-- Looking an address up in a list of bytes made from a byte function. -/
theorem Sparse.get_filterMap (f : Nat → Option Byte) (as : List Nat) (k : Nat) :
    Sparse.get (as.filterMap fun a => (f a).map fun b => (a, b)) k = if k ∈ as then f k else none := by
  induction as with
  | nil => rfl
  | cons a as ih =>
    cases hf : f a with
    | none =>
      rw [List.filterMap_cons_none (by simp [hf]), ih]
      by_cases hk : k = a
      · subst hk
        simp [hf]
      · simp [hk]
    | some b =>
      rw [List.filterMap_cons_some (b := (a, b)) (by simp [hf]), Sparse.get_cons, ih]
      by_cases hk : a = k
      · subst hk
        simp [hf]
      · simp [hk, Ne.symm hk]

/-- The addresses listed are those of the two images. -/
theorem mem_imageAddrs {a : Nat} : a ∈ imageAddrs p ↔ locate p a ≠ none := by
  rw [Ne, locate_eq_none, not_and_or, not_not, not_not]
  unfold imageAddrs
  split <;> simp only [List.mem_append, List.mem_range'_1]
  exact or_comm

/-! Reads of several bytes (R34). -/

/-- A read that covers a byte it cannot get, gets nothing. -/
theorem readWith_error {f : Nat → Except Fault Byte} {a : Addr} {n k : Nat} (hk : k < n) {e : Fault}
    (h : f (a.toNat + k) = .error e) : ∃ e', readWith f a n = .error e' := by
  unfold readWith
  split
  · obtain ⟨e', he'⟩ := readBytes_error hk h
    exact ⟨e', by rw [he']⟩
  · exact ⟨_, rfl⟩

/-- A read whose bytes all can be got, returns. -/
theorem readWith_total {f : Nat → Except Fault Byte} {a : Addr} {n : Nat} (h1 : 1 ≤ n) (h8 : n ≤ 8)
    (h : ∀ k, k < n → ∃ b, f (a.toNat + k) = .ok b) : ∃ v, readWith f a n = .ok v := by
  choose! g hg using h
  unfold readWith
  rw [if_pos ⟨h1, h8⟩, readBytes_ok hg]
  exact ⟨_, rfl⟩

theorem byteForRead_error {a : Nat} (h : imageByte p s a = none) : ∃ e, byteForRead p s a = .error e := by
  unfold byteForRead
  split
  · exact ⟨_, rfl⟩
  · rw [h]
    exact ⟨_, rfl⟩

theorem memRead_error {a : Addr} {n k : Nat} (hk : k < n) (h : imageByte p s (a.toNat + k) = none) :
    ∃ e, memRead p s a n = .error e := by
  obtain ⟨e, he⟩ := byteForRead_error h
  exact readWith_error hk he

/-! The value of a read (R31). -/

/-- The bytes of a read, in the order of their addresses, are the bytes of its value. -/
theorem byte_of_valueOfBytes {n k : Nat} (h8 : n ≤ 8) (hk : k < n) (g : Nat → Byte) :
    (valueOfBytes ((List.range n).map g)).extractLsb' (8 * k) 8 = g k := by
  refine BitVec.eq_of_getLsbD_eq fun j hj => ?_
  rw [BitVec.getLsbD_extractLsb', decide_eq_true hj, Bool.true_and, valueOfBytes_range_bit h8,
    show (8 * k + j) / 8 = k by omega, show (8 * k + j) % 8 = j by omega, decide_eq_true hk, Bool.true_and]

/-- A value of `n` bytes. -/
theorem valueOfBytes_lt {n : Nat} (h8 : n ≤ 8) (g : Nat → Byte) :
    (valueOfBytes ((List.range n).map g)).toNat < 2 ^ (8 * n) := by
  refine Nat.lt_pow_two_of_testBit _ fun j hj => ?_
  rw [BitVec.testBit_toNat, valueOfBytes_range_bit h8, decide_eq_false (by omega), Bool.false_and]

/-- Consecutive bytes of a stored value make a slice of it. -/
theorem valueOfBytes_byteOf {w n : Nat} (v : BitVec w) (o : Nat) (h8 : n ≤ 8) :
    valueOfBytes ((List.range n).map fun k => byteOf v (o + k)) = (v.extractLsb' (8 * o) (8 * n)).setWidth 64 := by
  refine BitVec.eq_of_getLsbD_eq fun j hj => ?_
  rw [valueOfBytes_range_bit h8, byteOf, BitVec.getLsbD_extractLsb', BitVec.getLsbD_setWidth,
    BitVec.getLsbD_extractLsb', decide_eq_true hj, decide_eq_true (Nat.mod_lt j (by decide) : j % 8 < 8),
    Bool.true_and, Bool.true_and, show 8 * (o + j / 8) + j % 8 = 8 * o + j by omega]
  congr 1
  exact decide_eq_decide.mpr (by omega)

/-- A read inside an entry returns a slice of its descriptor. -/
theorem memRead_entry {i o n : Nat} {d : Descriptor} {a : Addr} (hi : i < p.nEntries) (hd : s.entry i = some d)
    (ha : a.toNat = entryAddr p i + o) (h1 : 1 ≤ n) (hn : o + n ≤ 8) :
    memRead p s a n = .ok ((d.extractLsb' (8 * o) (8 * n)).setWidth 64) := by
  rw [← valueOfBytes_byteOf d o (by omega)]
  refine memRead_of_bytes h1 (by omega) fun k hk => ?_
  rw [ha, Nat.add_assoc, imageByte_entry hi (by omega), hd]
  rfl

/-- A read inside the pointer record returns a slice of it. -/
theorem memRead_pointer (hp : p.Legal) {o n : Nat} {q : TablePointer} {a : Addr} (hq : s.ptr = some q)
    (ha : a.toNat = p.ptrAddr.toNat + o) (h1 : 1 ≤ n) (hn : o + n ≤ 6) :
    memRead p s a n = .ok ((q.packed.extractLsb' (8 * o) (8 * n)).setWidth 64) := by
  rw [← valueOfBytes_byteOf q.packed o (by omega)]
  refine memRead_of_bytes h1 (by omega) fun k hk => ?_
  rw [ha, Nat.add_assoc, imageByte_pointer hp (by omega), hq]
  rfl

/-- The loader finds the limit at the record's first two bytes and the base at the four after it (R33). -/
theorem memRead_pointer_fields (hp : p.Legal) {q : TablePointer} (hq : s.ptr = some q) :
    memRead p s p.ptrAddr 2 = .ok (q.limit.setWidth 64) ∧
      memRead p s (p.ptrAddr + 2) 4 = .ok (q.base.setWidth 64) := by
  have hlimit : q.packed.extractLsb' (8 * 0) (8 * 2) = q.limit :=
    (slice_append_low q.base q.limit (by decide)).trans (slice_self _)
  have hbase : q.packed.extractLsb' (8 * 2) (8 * 4) = q.base :=
    (slice_append_high q.base q.limit 32 (by decide)).trans (slice_self _)
  have haddr : (p.ptrAddr + 2).toNat = p.ptrAddr.toNat + 2 := by
    obtain ⟨-, -, -, hptr, -⟩ := hp
    exact BitVec.toNat_add_of_lt (y := 2) (Nat.lt_of_lt_of_le (Nat.add_lt_add_left (by decide) _) hptr)
  constructor
  · rw [memRead_pointer hp (o := 0) hq rfl (by decide) (by decide), hlimit]
  · rw [memRead_pointer hp (o := 2) hq haddr (by decide) (by decide), hbase]

/-! The obligations. -/

/-- Settles O45: `locate` places every address of the table image in its entry, and no address outside both images. -/
theorem tableImageBytes : Obligations.TableImageBytes := by
  unfold Obligations.TableImageBytes
  refine fun p s _ => ⟨fun i k hi hk => imageByte_entry hi hk, fun i k hi hk he => ?_, fun a htable hptr => ?_⟩
  · refine (imageByte_entry (s := s) hi hk).trans ?_
    rw [he]
    rfl
  · have hl : locate p a = none := locate_eq_none.mpr ⟨htable, hptr⟩
    exact ⟨hl, imageByte_outside hl⟩

/-- Settles O46: the record is the limit below the base, and its bytes are slices of the two. -/
theorem pointerImageBytes : Obligations.PointerImageBytes := by
  unfold Obligations.PointerImageBytes
  refine fun p s q hp => ⟨fun hq => ?_, fun hq k hk => ?_⟩
  · have hbyte {k : Nat} (hk : k < 6) : imageByte p s (p.ptrAddr.toNat + k) = some (byteOf q.packed k) := by
      rw [imageByte_pointer hp hk, hq]
      rfl
    have hlimit {k : Nat} (hk : k < 2) :
        imageByte p s (p.ptrAddr.toNat + k) = some (q.limit.extractLsb' (8 * k) 8) :=
      (hbyte (by omega)).trans (congrArg some (byteOf_packed_limit q hk))
    have hbase {k : Nat} (h2 : 2 ≤ k) (h6 : k < 6) :
        imageByte p s (p.ptrAddr.toNat + k) = some (q.base.extractLsb' (8 * (k - 2)) 8) :=
      (hbyte h6).trans (congrArg some (byteOf_packed_base q h2))
    exact ⟨hlimit (k := 0) (by decide), hlimit (k := 1) (by decide), hbase (k := 2) (by decide) (by decide),
      hbase (k := 3) (by decide) (by decide), hbase (k := 4) (by decide) (by decide),
      hbase (k := 5) (by decide) (by decide)⟩
  · rw [imageByte_pointer hp hk, hq]
    rfl

/-- Settles O47: the list holds the byte of every address of the images that has one. -/
theorem memoryListReadsAsImages : Obligations.MemoryListReadsAsImages := by
  unfold Obligations.MemoryListReadsAsImages
  intro p s _ a
  rw [State.memory, Sparse.get_filterMap]
  split
  · rfl
  · next ha => exact (imageByte_outside (not_not.mp (mt mem_imageAddrs.mpr ha))).symm

/-- Settles O48: a read's value, byte by byte. -/
theorem readsReturnTheBytes : Obligations.ReadsReturnTheBytes := by
  unfold Obligations.ReadsReturnTheBytes
  exact fun p s a n g h1 h8 h => ⟨_, memRead_of_bytes h1 h8 h, fun k hk => byte_of_valueOfBytes h8 hk g,
    valueOfBytes_lt h8 g⟩

/-- Settles O49: the four reads are slices of the descriptor, and adjacent fields make one slice (R11). -/
theorem mixedWidthReadsOfEntry : Obligations.MixedWidthReadsOfEntry := by
  unfold Obligations.MixedWidthReadsOfEntry
  intro p s i d a hp hi hd ha
  have hread {o n : Nat} {b : Addr} (hb : b.toNat = entryAddr p i + o) (h1 : 1 ≤ n) (hn : o + n ≤ 8) :
      memRead p s b n = .ok ((d.extractLsb' (8 * o) (8 * n)).setWidth 64) := memRead_entry hi hd hb h1 hn
  have ha4 : (a + 4).toNat = entryAddr p i + 4 := by
    obtain ⟨-, -, htable, -, -⟩ := hp
    rw [← ha]
    refine BitVec.toNat_add_of_lt (y := 4) ?_
    rw [ha, entryAddr, selector, show (4 : Addr).toNat = 4 from rfl]
    omega
  have hlow : descBaseLow d ++ descLimitLow d = d.extractLsb' 0 32 := slice_concat d 0 16 16
  have hhigh : descBaseHigh d ++ descGranularity d ++ descAccess d ++ descBaseMid d = d.extractLsb' 32 32 := by
    unfold descBaseHigh descGranularity descAccess descBaseMid
    rw [slice_concat d 48 8 8, slice_concat d 40 16 8, slice_concat d 32 24 8]
  have hall : (d.extractLsb' 0 64).setWidth 64 = d := (BitVec.setWidth_eq _).trans (slice_self d)
  rw [hlow, hhigh]
  exact ⟨hread (o := 0) ha (by decide) (by decide), hread (o := 0) ha (by decide) (by decide),
    hread ha4 (by decide) (by decide), (hread (o := 0) ha (by decide) (by decide)).trans (congrArg Except.ok hall)⟩

/-- Settles O33: the state after reset, field by field. -/
theorem resetValues : Obligations.ResetValues := by
  unfold Obligations.ResetValues
  exact ⟨fun _ => rfl, rfl, rfl, rfl, rfl, rfl, rfl, rfl⟩

/-- R141: a block reset leaves the pointer the loader installed. -/
theorem State.applyReset_dtr (s : State) : s.applyReset.consumer.dtr = s.consumer.dtr := by
  refine (Consumer.notePtr_dtr _ _ _).trans ?_
  exact List.foldlRecOn (motive := fun c : Consumer => c.dtr = s.consumer.dtr) _ _ rfl
    fun c hc _ _ => (c.noteEntry_dtr _ _ _).trans hc

/-- Settles O34: after a reset no byte has a value, so a read meets none at its first byte. -/
theorem blockResetLeavesConsumer : Obligations.BlockResetLeavesConsumer := by
  unfold Obligations.BlockResetLeavesConsumer
  intro s
  have hnone (p : Params) (a : Nat) : imageByte p s.applyReset a = none := imageByte_unwritten (fun _ => rfl) rfl a
  exact ⟨fun _ => rfl, ⟨rfl, rfl⟩, rfl, ⟨rfl, rfl⟩, rfl, s.applyReset_dtr, hnone,
    fun p a n h1 => memRead_error h1 (hnone p (a.toNat + 0))⟩

/-- A move that answers with a load event hands over the pointer, with nothing older left to see (R104, R105). -/
theorem Moves.pointer_of_okWithLoad {e : LoadEvent} (m : Moves p s t) (h : t.answer = some (.okWithLoad e)) :
    ∃ q, t.ptr = some q ∧ e = loadEventOf p q ∧ t.consumer = Consumer.install q := by
  cases m with
  | refused | faulted | encoded | built | pointed => simp at h
  | loaded _ _ _ q hq =>
    cases h
    exact ⟨q, hq, rfl, rfl⟩
  | inited =>
    cases h
    exact ⟨_, rfl, rfl, rfl⟩

/-- Settles O51: the event carries the pointer, and the record at its address is the pointer's (R33). -/
theorem loaderFindsEventInMemory : Obligations.LoaderFindsEventInMemory := by
  unfold Obligations.LoaderFindsEventInMemory
  intro s t i e h ha
  obtain ⟨q, hq, rfl, -⟩ := (exec_moves h).pointer_of_okWithLoad ha
  exact memRead_pointer_fields hw_legal hq

end Sys2Proof.Machine
end

section
/-! PROOFS. The consumer's view (20_memory.md section 5): what it may see of each byte, that this only grows between load
events, and which of its reads return. -/

namespace Sys2Proof.Machine

variable {p : Params} {s t : State}

/-! What the consumer may see of an entry and of the pointer (R44). -/

/-- A value of entry `i` since the last load event, the present one included. -/
def State.EntrySeen (s : State) (i : Nat) (d : Option Descriptor) : Prop := d ∈ s.consumer.oldOf i ∨ d = s.entry i

/-- The same of the pointer. -/
def State.PtrSeen (s : State) (q : Option TablePointer) : Prop := q ∈ s.consumer.oldPtrs ∨ q = s.ptr

/-- Everything the consumer may see of entries and pointer before, it may see after. -/
structure SeenGrows (s t : State) : Prop where
  entries : ∀ i d, s.EntrySeen i d → t.EntrySeen i d
  pointers : ∀ q, s.PtrSeen q → t.PtrSeen q

theorem SeenGrows.refl (s : State) : SeenGrows s s := ⟨fun _ _ => id, fun _ => id⟩

theorem SeenGrows.trans {u : State} (h : SeenGrows s t) (h' : SeenGrows t u) : SeenGrows s u :=
  ⟨fun i d hd => h'.entries i d (h.entries i d hd), fun q hq => h'.pointers q (h.pointers q hq)⟩

/-- The views of a byte come from the values seen of its entry or of the pointer. -/
theorem SeenGrows.byteViews (h : SeenGrows s t) {a : Nat} {v : Option Byte} (hv : v ∈ byteViews p s a) :
    v ∈ byteViews p t a := by
  cases hl : locate p a with
  | none => simp [byteViews_outside hl] at hv
  | some place =>
    cases place with
    | entry i k =>
      obtain ⟨d, hd, hdv⟩ := (mem_byteViews_entry hl v).mp hv
      exact (mem_byteViews_entry hl v).mpr ⟨d, h.entries i d hd, hdv⟩
    | pointer k =>
      obtain ⟨q, hq, hqv⟩ := (mem_byteViews_pointer hl v).mp hv
      exact (mem_byteViews_pointer hl v).mpr ⟨q, h.pointers q hq, hqv⟩

/-- An entry write after a load event keeps the old value in view. -/
theorem seenGrows_writeEntry (hd : s.consumer.dtr ≠ none) (i : Nat) (d : Descriptor) :
    SeenGrows s (s.writeEntry i d) := by
  refine ⟨fun j x hx => ?_, fun q hq => ?_⟩
  · rw [State.EntrySeen, State.writeEntry_consumer, Consumer.mem_oldOf_noteEntry, State.entry_writeEntry]
    rcases hx with hx | rfl
    · exact .inl (.inl hx)
    by_cases hij : i = j
    · subst hij
      by_cases hsame : s.entry i = some d
      · exact .inr (by rw [if_pos rfl, hsame])
      · exact .inl (.inr ⟨rfl, rfl, hd, hsame⟩)
    · exact .inr (by rw [if_neg hij])
  · rwa [State.PtrSeen, State.writeEntry_consumer, Consumer.noteEntry_oldPtrs, State.writeEntry_ptr]

theorem seenGrows_writeCanonical (hd : s.consumer.dtr ≠ none) : SeenGrows s (s.writeCanonical p) := by
  refine (State.writeCanonical_keeps (P := fun u => u.consumer.dtr ≠ none ∧ SeenGrows s u)
    (fun u i d _ hu => ⟨?_, hu.2.trans (seenGrows_writeEntry hu.1 i d)⟩) ⟨hd, .refl s⟩).2
  rw [State.writeEntry_consumer, Consumer.noteEntry_dtr]
  exact hu.1

/-- A pointer write after a load event keeps the old pointer in view. -/
theorem seenGrows_writePointer (hd : s.consumer.dtr ≠ none) (q : TablePointer) : SeenGrows s (s.writePointer q) := by
  refine ⟨fun i d hs => ?_, fun x hx => ?_⟩
  · rwa [State.EntrySeen, State.writePointer_consumer, Consumer.oldOf_notePtr]
  · rw [State.PtrSeen, State.writePointer_consumer, Consumer.mem_oldPtrs_notePtr, State.writePointer_ptr]
    rcases hx with hx | rfl
    · exact .inl (.inl hx)
    by_cases hsame : s.ptr = some q
    · exact .inr hsame
    · exact .inl (.inr ⟨rfl, hd, hsame⟩)

/-- A move without a load event takes nothing from view. -/
theorem Moves.seenGrows (m : Moves p s t) (hl : t.loads = s.loads) (hd : s.consumer.dtr ≠ none) : SeenGrows s t := by
  cases m with
  | refused | faulted => exact ⟨fun _ _ => id, fun _ => id⟩
  | encoded _ i _ d =>
    have h := seenGrows_writeEntry hd i d
    exact ⟨h.entries, h.pointers⟩
  | built =>
    have h := seenGrows_writeCanonical (p := p) hd
    exact ⟨h.entries, h.pointers⟩
  | pointed =>
    have h := seenGrows_writePointer hd (pointerValue p)
    exact ⟨h.entries, h.pointers⟩
  | loaded | inited => simp at hl

/-! Rewrites that change nothing (R145). -/

/-- Writing an entry the value it has leaves the consumer's data and every entry. -/
theorem State.writeEntry_same {i : Nat} {d : Descriptor} (h : s.entry i = some d) :
    (s.writeEntry i d).consumer = s.consumer ∧ ∀ j, (s.writeEntry i d).entry j = s.entry j := by
  refine ⟨by rw [State.writeEntry_consumer, h, Consumer.noteEntry_same], fun j => ?_⟩
  rw [State.entry_writeEntry]
  split
  · next hij => rw [← hij, h]
  · rfl

/-- Building a table that is canonical already leaves the consumer's data. -/
theorem State.writeCanonical_same (h : ∀ j, (s.writeCanonical p).entry j = s.entry j) :
    (s.writeCanonical p).consumer = s.consumer := by
  refine (State.writeCanonical_induct (P := fun u => u.consumer = s.consumer ∧ ∀ j, u.entry j = s.entry j)
    (fun u e he hu => ?_) ⟨rfl, fun _ => rfl⟩).1
  obtain ⟨hc, hentry⟩ := hu
  obtain ⟨h5, hget⟩ := get_of_mem_canonEntries he
  have hsame : u.entry e.1 = some e.2 := by
    rw [hentry, ← h, State.entry_writeCanonical_of_lt _ p h5, hget]
  obtain ⟨hc', hentry'⟩ := State.writeEntry_same hsame
  exact ⟨hc'.trans hc, fun j => (hentry' j).trans (hentry j)⟩

/-- A move without a load event that changes no byte of the images leaves the consumer's data. -/
theorem Moves.consumer_kept (m : Moves p s t) (hl : t.loads = s.loads) (htable : SameTable s t)
    (hptr : t.ptr = s.ptr) : t.consumer = s.consumer := by
  cases m with
  | refused | faulted => rfl
  | encoded _ i _ d =>
    have hi : s.entry i = some d := by
      rw [← htable i, State.entry_answerWith, State.entry_writeEntry, if_pos rfl]
    exact (State.writeEntry_same hi).1
  | built => exact State.writeCanonical_same htable
  | pointed =>
    have hq : s.ptr = some (pointerValue p) := hptr.symm
    rw [State.answerWith_consumer, State.writePointer_consumer, hq, Consumer.notePtr_same]
  | loaded | inited => simp at hl

/-- The views depend on the consumer's data, the table and the pointer alone. -/
theorem seenGrows_of_same (hc : t.consumer = s.consumer) (he : SameTable s t) (hq : t.ptr = s.ptr) :
    SeenGrows s t := by
  refine ⟨fun i d hd => ?_, fun q h => ?_⟩
  · rwa [State.EntrySeen, hc, he i]
  · rwa [State.PtrSeen, hc, hq]

/-! The present value, and reads (R34, R35). -/

/-- The byte as it stands is among its views. -/
theorem imageByte_mem_byteViews {a : Nat} (h : locate p a ≠ none) : imageByte p s a ∈ byteViews p s a := by
  cases hl : locate p a with
  | none => exact absurd hl h
  | some place =>
    cases place with
    | entry i k => exact (mem_byteViews_entry hl _).mpr ⟨s.entry i, .inr rfl, by simp [imageByte, hl]⟩
    | pointer k => exact (mem_byteViews_pointer hl _).mpr ⟨s.ptr, .inr rfl, by simp [imageByte, hl]⟩

theorem consumerByte_error {a : Nat} (h : imageByte p s a = none) : ∃ e, consumerByte p s a = .error e := by
  unfold consumerByte
  by_cases hl : locate p a = none
  · exact ⟨_, if_pos hl⟩
  · have hmem : none ∈ byteViews p s a := h ▸ imageByte_mem_byteViews hl
    exact ⟨_, (if_neg hl).trans (if_pos hmem)⟩

/-- With every view a value, whichever one is picked is a byte. -/
theorem consumerByte_total {a : Nat} (hl : locate p a ≠ none) (hviews : none ∉ byteViews p s a) :
    ∃ b, consumerByte p s a = .ok b := by
  have hpos : 0 < (viewBytes p s a).length := by
    obtain ⟨b, hb⟩ := Option.ne_none_iff_exists'.mp
      (ne_of_mem_of_not_mem (imageByte_mem_byteViews (s := s) hl) hviews)
    exact List.length_pos_of_mem (List.mem_filterMap.mpr ⟨_, imageByte_mem_byteViews hl, hb⟩)
  unfold consumerByte
  rw [if_neg hl, if_neg hviews, List.getElem?_eq_getElem (Nat.mod_lt _ hpos)]
  exact ⟨_, rfl⟩

/-- With the present value as the only view, the consumer sees the images. -/
theorem consumerByte_of_single {a : Nat} (h : locate p a ≠ none → byteViews p s a = [imageByte p s a]) :
    consumerByte p s a = byteForRead p s a := by
  unfold consumerByte byteForRead
  by_cases hl : locate p a = none
  · rw [if_pos hl, if_pos hl]
  · rw [if_neg hl, if_neg hl, viewBytes, h hl]
    cases imageByte p s a with
    | none => simp
    | some b => simp [Nat.mod_one]

/-- A load event leaves the images as the only view (R44). -/
theorem byteViews_of_install {q : TablePointer} (hc : s.consumer = Consumer.install q) {a : Nat}
    (hl : locate p a ≠ none) : byteViews p s a = [imageByte p s a] := by
  unfold byteViews imageByte
  split
  · rw [hc]
    rfl
  · rw [hc]
    rfl
  · next h => exact absurd h hl

/-- R35, R22: after a load event the invariant leaves no unwritten value in view, on a table of five entries. -/
theorem Inv.none_notMem_byteViews (h : Inv p s) (hn : p.nEntries ≤ 5) (hl : s.loads ≠ []) (a : Nat) :
    none ∉ byteViews p s a := by
  obtain ⟨-, hptr, hwritten⟩ := h.after_load hl
  obtain ⟨hentries, hptrs⟩ := h.environment.old_written hl
  intro hmem
  cases hloc : locate p a with
  | none => simp [byteViews_outside hloc] at hmem
  | some place =>
    cases place with
    | entry i k =>
      have hi : i < 5 := Nat.lt_of_lt_of_le (locate_eq_entry hloc).1 hn
      obtain ⟨d, hd, hnone⟩ := (mem_byteViews_entry hloc _).mp hmem
      obtain rfl := Option.map_eq_none_iff.mp hnone
      rcases hd with hd | hd
      · cases hg : Sparse.get s.consumer.oldEntries i with
        | none => simp [Consumer.oldOf, hg] at hd
        | some xs => exact hentries _ (Sparse.mem_of_get hg) hi (by simpa [Consumer.oldOf, hg] using hd)
      · exact hwritten i hi hd.symm
    | pointer k =>
      obtain ⟨q, hq, hnone⟩ := (mem_byteViews_pointer hloc _).mp hmem
      obtain rfl := Option.map_eq_none_iff.mp hnone
      exact hq.elim hptrs fun hq => hptr hq.symm

/-- A consumer's read after a load event is a read of the bytes it sees. -/
theorem consumerRead_of_loaded (h : s.consumer.dtr ≠ none) (a : Addr) (n : Nat) :
    consumerRead p s a n = readWith (consumerByte p s) a n := if_neg h

/-! The obligations. -/

/-- Settles O50: the byte with no value stops the read of the images, and is in the consumer's view. -/
theorem readOfUnwrittenByteFaults : Obligations.ReadOfUnwrittenByteFaults := by
  unfold Obligations.ReadOfUnwrittenByteFaults
  refine fun p s a n k _ _ hk h => ⟨memRead_error hk h, ?_⟩
  by_cases hd : s.consumer.dtr = none
  · exact ⟨_, if_pos hd⟩
  · obtain ⟨e, he⟩ := consumerByte_error h
    rw [consumerRead_of_loaded hd]
    exact readWith_error hk he

/-- Settles O52: a load event empties the old values, so each byte has one view. -/
theorem loadEventSynchronisesConsumer : Obligations.LoadEventSynchronisesConsumer := by
  unfold Obligations.LoadEventSynchronisesConsumer
  intro s t i e h ha a n
  obtain ⟨q, -, -, hc⟩ := (exec_moves h).pointer_of_okWithLoad ha
  have hd : t.consumer.dtr ≠ none := by simp [hc]
  rw [consumerRead_of_loaded hd, memRead,
    funext fun a => consumerByte_of_single (p := hw) (s := t) (a := a) (byteViews_of_install hc)]

/-- Settles O53: the write keeps the old value in view, and the new one is the present one. -/
theorem writeAfterLoadIsLeftOpen : Obligations.WriteAfterLoadIsLeftOpen := by
  unfold Obligations.WriteAfterLoadIsLeftOpen
  intro s index base limit access flags hf hi hd
  refine ⟨_, encodeCmd_ok hf hi base limit access flags, fun k hk => ?_⟩
  have hl : locate hw (entryAddr hw index.toNat + k) ≠ none := by simp [locate_entry hi hk]
  exact ⟨(seenGrows_writeEntry hd _ _).byteViews (imageByte_mem_byteViews hl), imageByte_mem_byteViews hl⟩

/-- Settles O54: without a load event nothing leaves the view, and where no byte changes nothing is noted. -/
theorem consumerViewOnlyGrowsBetweenLoads : Obligations.ConsumerViewOnlyGrowsBetweenLoads := by
  unfold Obligations.ConsumerViewOnlyGrowsBetweenLoads
  intro s t i h hl
  have m := exec_moves h
  refine ⟨fun a v hv hd => (m.seenGrows hl hd).byteViews hv, fun htable hptr a v => ?_⟩
  have hc := m.consumer_kept hl htable hptr
  exact ⟨(seenGrows_of_same hc.symm (fun i => (htable i).symm) hptr.symm).byteViews,
    (seenGrows_of_same hc htable hptr).byteViews⟩

/-- Settles O55: every view of every byte of the images is a value, so each byte of the read can be got. -/
theorem noConsumerReadFaultsAfterLoad : Obligations.NoConsumerReadFaultsAfterLoad := by
  unfold Obligations.NoConsumerReadFaultsAfterLoad
  intro s a n h hl h1 h8 hloc
  rw [consumerRead_of_loaded (h.environment.after_load hl)]
  exact readWith_total h1 h8 fun k hk =>
    consumerByte_total (hloc k hk) (h.none_notMem_byteViews (Nat.le_refl 5) hl _)

end Sys2Proof.Machine
end
